-- ==== Sys2Proof/Word.lean ====
section
/-! DEFINITION. The value domains of 00_scope.md R5, R7 and R8: 32-bit patterns, bytes, register numbers, and the two
readings of a pattern. -/

namespace Sys2Proof

/-- Bits32: a 32-bit pattern, the native register width (00_scope.md R5, R7). -/
abbrev Word := BitVec 32

/-- Bits8: one byte (00_scope.md R7). -/
abbrev Byte := BitVec 8

/-- The number of a general register, 0 to 31 (10_state.md R30, R31). -/
abbrev RegNum := Fin 32

/-- `uint32(v) = v mod 2^32`: the pattern of any Int (00_scope.md R8). -/
def uint32 (v : Int) : Word := BitVec.ofInt 32 v

/-- `sint32(p)`: the signed reading of a pattern (00_scope.md R8). -/
def sint32 (p : Word) : Int := p.toInt

end Sys2Proof
end

