-- ==== Sys2Proof/Machine/Flags.lean ====
section
/-! DEFINITION. The block has no status flags or condition codes (10_state.md R38). What another hardware keeps in flags is
here: the overflow utilities of 00_scope.md R10 and the overflow test of the signed instructions (40_arithmetic.md R140, R142,
R143), whose outcome is a fault and never a stored bit. -/

namespace Sys2Proof.Machine

/-- `overflow_detect(v) = ((v + 2^31) mod 2^32) - 2^31` (00_scope.md R10). -/
def overflowDetect (v : Int) : Int := (v + 2 ^ 31) % 2 ^ 32 - 2 ^ 31

/-- The exact result lies in [-2^31, 2^31-1] (40_arithmetic.md R140, R145). -/
def fitsSigned32 (v : Int) : Bool := decide (-2 ^ 31 ≤ v) && decide (v ≤ 2 ^ 31 - 1)

end Sys2Proof.Machine
end

