-- ==== Sys2Proof/Config.lean ====
section
/-! DEFINITION. What 00_scope.md R6 fixes or gives a default for. The parameters R6 calls OPEN (ENDIAN, MEM_INIT, PROG_BASE,
RESET_PC, INIT_REGS, and the loader's LABELS and PROG) are fields of State, so that a claim about every state quantifies
over them. Here stand only the values State.reset takes for them. No value of this hardware is free:
93_implementation_defined.md section 1 says that no undefined behaviour needs a value. -/

namespace Sys2Proof.Config

/-- PROG_BASE of the reset state, also its RESET_PC (R6: RESET_PC defaults to PROG_BASE). DESIGN CHOICE, unsafe: R6 leaves
PROG_BASE OPEN; this is the value its `vectors` column uses (log entry 2). -/
def resetProgBase : Word := 0x00400000

/-- MEM_INIT of the reset state: the platform default of R6 and 20_memory.md R72, every byte 0x00. DESIGN CHOICE, unsafe:
R6 leaves MEM_INIT OPEN (log entry 4). -/
def resetFill : Byte := 0x00

/-- INIT_REGS of the reset state, for GPR 1 to 31, hi and lo. DESIGN CHOICE, unsafe: R6 and 10_state.md R55 leave INIT_REGS
OPEN; the vectors use 0 (log entry 1). -/
def resetRegister : Word := 0

end Sys2Proof.Config
end

