-- ==== Sys2Proof/Syntax.lean ====
section
/-! DEFINITION. The instruction terms of 30_encoding.md R100 and R101, the normative level of the spec (00_scope.md R4): one
constructor for each of the 21 mnemonics of 00_scope.md R2, operands in assembler order (R113). A register operand names a
general register only (10_state.md R35); an immediate is an unbounded Int, its range is checked when the instruction
executes (R102); a target is an address already resolved by the loader (R103). -/

namespace Sys2Proof

/-- An instruction term (30_encoding.md R100, R101). -/
inductive Instr where
  /-- form R3, R140 -/
  | add (rd rs rt : RegNum)
  /-- form R3, R141 -/
  | addu (rd rs rt : RegNum)
  /-- form I, R142 -/
  | addi (rt rs : RegNum) (imm : Int)
  /-- form R3, R143 -/
  | sub (rd rs rt : RegNum)
  /-- form R2, R144 -/
  | mult (rs rt : RegNum)
  /-- form SH, R160 -/
  | sll (rd rt : RegNum) (sa : Int)
  /-- form SH, R161 -/
  | srl (rd rt : RegNum) (sa : Int)
  /-- form SV, R162 -/
  | srav (rd rt rs : RegNum)
  /-- form R3, R170 -/
  | slt (rd rs rt : RegNum)
  /-- form M, R176 -/
  | lb (rt : RegNum) (offset : Int) (base : RegNum)
  /-- form M, R177 -/
  | lbu (rt : RegNum) (offset : Int) (base : RegNum)
  /-- form M, R178 -/
  | sh (rt : RegNum) (offset : Int) (base : RegNum)
  /-- form M, R179 -/
  | sw (rt : RegNum) (offset : Int) (base : RegNum)
  /-- form U, R180 -/
  | lui (rt : RegNum) (imm : Int)
  /-- form J, R195 -/
  | j (target : Word)
  /-- form J, R196 -/
  | jal (target : Word)
  /-- form B, R197 -/
  | bgez (rs : RegNum) (target : Word)
  /-- form B, R198 -/
  | bgezal (rs : RegNum) (target : Word)
  /-- form B, R199 -/
  | blez (rs : RegNum) (target : Word)
  /-- form C, R215 -/
  | clz (rd rs : RegNum)
  /-- form C, R216 -/
  | clo (rd rs : RegNum)
deriving DecidableEq, Repr

end Sys2Proof
end

