-- ==== Sys2Proof/Machine/State.lean ====
section
/-! DEFINITION. The complete state of one run (10_state.md, opening list, and R30 to R43): plain data, nothing hidden. The
launch parameters that are fixed for a run (ENDIAN, MEM_INIT, LABELS, PROG_BASE, PROG, BINARY_LAYER; 00_scope.md R6) are
fields too, so that a claim about every state holds for every launch; no instruction writes them. -/

namespace Sys2Proof.Machine

/-- ENDIAN (10_state.md R39, 20_memory.md R75). -/
inductive Endian where
  | little
  | big
deriving DecidableEq, Repr

/-- MEM_INIT, what a byte nothing has written reads as (20_memory.md R72): a byte for every address, held as the byte of most
addresses and the addresses that differ. Every function from 32-bit addresses to bytes can be written so. -/
structure MemInit where
  fill : Byte
  exceptions : List Host.Cell
deriving DecidableEq, Repr

/-- The data memory M (20_memory.md R70 to R72): the bytes that differ from MEM_INIT, addresses rising, and MEM_INIT. -/
structure Memory where
  init : MemInit
  cells : List Host.Cell
deriving DecidableEq, Repr

/-- The program store PROG (10_state.md R40). `terms` is the normative level (BINARY_LAYER = false); `words` is the binary
layer (BINARY_LAYER = true), whose entries are 32-bit words (30_encoding.md R109, R112). -/
inductive Program where
  | terms (list : List Instr)
  | words (list : List Word)
deriving DecidableEq, Repr

/-- The fault kinds of 60_exceptions.md R225. -/
inductive FaultKind where
  | arithmeticOverflow
  | invalidImmediate
  | memoryAlignmentError
  | instructionFetchError
  | reservedInstruction
deriving DecidableEq, Repr

/-- The fault record of 60_exceptions.md R226: the kind, the address the faulting instruction was fetched from, and the
kind's `recorded addr`. -/
structure FaultRecord where
  kind : FaultKind
  pc : Word
  addr : Word
deriving DecidableEq, Repr

/-- The run status of 10_state.md R41. -/
inductive Status where
  | running
  | halted
  | faulted (rec : FaultRecord)
deriving DecidableEq, Repr

/-- The state of one run (10_state.md). Register 0 is read and written through `State.getReg` and `State.setReg` only, which
hard-wire it (R33); its storage slot stays 0 (log entry 5). -/
structure State where
  /-- x[0..31] (R30) -/
  gpr : Vector Word 32
  /-- R36; during Execute it holds the instruction's address plus 4 (R52) -/
  pc : Word
  /-- R37 -/
  hi : Word
  /-- R37 -/
  lo : Word
  /-- the data memory M with MEM_INIT (20_memory.md R70, R72) -/
  mem : Memory
  /-- ENDIAN (R39) -/
  endian : Endian
  /-- LABELS (R42, 20_memory.md R82) -/
  labels : List (String × Word)
  /-- PROG_BASE (R40) -/
  progBase : Word
  /-- PROG, and with it BINARY_LAYER (R40) -/
  prog : Program
  /-- R41 -/
  status : Status
deriving DecidableEq, Repr

/-- Why `step` has no next state. A fault of the SPEC's is not here: it is a next state whose status is Faulted
(60_exceptions.md R235). -/
inductive Fault where
  /-- raised by `step` on a state that is Halted: no step leaves it (10_state.md R41, R50). Safe: the hardware has no step
  there either. -/
  | alreadyHalted
  /-- raised by `step` on a state that is Faulted, with its record: no step leaves it (10_state.md R41, 60_exceptions.md
  R237). Safe: the hardware has no step there either. -/
  | alreadyFaulted (rec : FaultRecord)
deriving DecidableEq, Repr

/-- Why an instruction has no meaning. -/
inductive Refusal where
  /-- raised by `exec` for an instruction the model gives no meaning yet; no arm of `exec` raises it now. Safe: the model
  stops where the hardware goes on. -/
  | notModelled (mnemonic : String)
deriving DecidableEq, Repr

/-- What executing an instruction answers (10_state.md R48). -/
abbrev Result := Host.Outcome State Fault Refusal

/-- The machine right after reset (10_state.md R55, 70_reset_and_hazards.md R255, R256), before a program is loaded: every
OPEN launch parameter at the value its log entry names (entries 1 to 4 and 7). -/
def State.reset : State where
  gpr := Vector.replicate 32 Config.resetRegister
  pc := Config.resetProgBase
  hi := Config.resetRegister
  lo := Config.resetRegister
  mem := ⟨⟨Config.resetFill, []⟩, []⟩
  endian := .little
  labels := []
  progBase := Config.resetProgBase
  prog := .terms []
  status := .running

end Sys2Proof.Machine
end

