-- ==== Sys2Proof/Machine/Memory.lean ====
section
/-! DEFINITION. The data memory: one byte read and written, the canonical form, alignment, byte order, and the access
primitives MemRead and MemWrite (20_memory.md R70 to R80). Byte order is decided here and nowhere else. -/

namespace Sys2Proof.Machine

/-- The byte a list of cells holds at an address. -/
def lookupCell : List Host.Cell → Nat → Option Byte
  | [], _ => none
  | (b, v) :: rest, a => if a = b then some v else lookupCell rest a

/-- The list with the byte at `a` replaced: `some v` lists it, `none` unlists it; addresses stay rising. -/
def putCell : List Host.Cell → Nat → Option Byte → List Host.Cell
  | [], a, some v => [(a, v)]
  | [], _, none => []
  | (b, w) :: rest, a, o =>
    if a < b then
      match o with
      | some v => (a, v) :: (b, w) :: rest
      | none => (b, w) :: rest
    else if a = b then
      match o with
      | some v => (a, v) :: rest
      | none => rest
    else (b, w) :: putCell rest a o

/-- `MEM_INIT(a)`: what an address that nothing has written reads as (R72). -/
def MemInit.byteAt (init : MemInit) (a : Nat) : Byte := (lookupCell init.exceptions a).getD init.fill

/-- `M[a]` (R71, R72, R88). -/
def Memory.read (m : Memory) (a : Nat) : Byte := (lookupCell m.cells a).getD (m.init.byteAt a)

/-- `M[a] <- v` (R71). A byte equal to MEM_INIT is not listed. -/
def Memory.write (m : Memory) (a : Nat) (v : Byte) : Memory :=
  { m with cells := putCell m.cells a (if v = m.init.byteAt a then none else some v) }

/-- A canonical list of cells: addresses strictly rising and inside the 2^32 bytes of R70, no entry equal to what an unlisted
address reads as. -/
abbrev cellsWf (unlisted : Nat → Byte) (cells : List Host.Cell) : Prop :=
  cells.Pairwise (fun c d => c.1 < d.1) ∧ ∀ c ∈ cells, c.1 < 2 ^ 32 ∧ c.2 ≠ unlisted c.1

/-- The canonical form of a memory. -/
abbrev Memory.wf (m : Memory) : Prop :=
  cellsWf (fun _ => m.init.fill) m.init.exceptions ∧ cellsWf m.init.byteAt m.cells

/-- The access widths of R73. -/
inductive Width where
  | byte
  | half
  | word
deriving DecidableEq, Repr

/-- The width in bytes: 1, 2 or 4 (R73; 00_scope.md R15). -/
def Width.bytes : Width → Nat
  | .byte => 1
  | .half => 2
  | .word => 4

/-- `a mod n = 0` (R73). -/
def aligned (a : Word) (w : Width) : Bool := decide (a.toNat % w.bytes = 0)

/-- The bytes of `n` cells from address `a` up. -/
def Memory.readBytes (m : Memory) : Nat → Nat → List Byte
  | _, 0 => []
  | a, n + 1 => m.read a :: m.readBytes (a + 1) n

/-- The given bytes stored from address `a` up. -/
def Memory.writeBytes (m : Memory) : Nat → List Byte → Memory
  | _, [] => m
  | a, v :: rest => (m.write a v).writeBytes (a + 1) rest

/-- The little-endian value of bytes, lowest address first: `sum b[i] * 2^(8*i)` (R74). -/
def littleValue : List Byte → Nat
  | [] => 0
  | b :: rest => b.toNat + 256 * littleValue rest

/-- The `n` bytes of a value, least significant first: byte i is `p[8i+7 : 8i]` (R76). -/
def littleBytes : Nat → Nat → List Byte
  | 0, _ => []
  | n + 1, p => BitVec.ofNat 8 p :: littleBytes n (p / 256)

/-- The value of bytes in the order of ENDIAN, lowest address first (R74, R75). -/
def valueOf : Endian → List Byte → Nat
  | .little, bytes => littleValue bytes
  | .big, bytes => littleValue bytes.reverse

/-- The bytes of a value in the order of ENDIAN, lowest address first (R75, R76). -/
def bytesOf : Endian → Nat → Nat → List Byte
  | .little, n, p => littleBytes n p
  | .big, n, p => (littleBytes n p).reverse

/-- MemRead(a, n) (R74): `none` is MemoryAlignmentError with the address `a`. -/
def memRead (e : Endian) (m : Memory) (a : Word) (w : Width) : Option Nat :=
  if aligned a w then some (valueOf e (m.readBytes a.toNat w.bytes)) else none

/-- MemWrite(a, n, v) (R76): the low 8n bits of `v` are stored; `none` is MemoryAlignmentError with the address `a`, checked
before any byte is written. -/
def memWrite (e : Endian) (m : Memory) (a : Word) (w : Width) (v : Int) : Option Memory :=
  if aligned a w then
    some (m.writeBytes a.toNat (bytesOf e w.bytes (v % 2 ^ (8 * w.bytes)).toNat))
  else none

end Sys2Proof.Machine
end

