-- ==== Sys2Proof/Machine/Operands.lean ====
section
/-! DEFINITION. Operands: the register ports (10_state.md R32 to R34), the ranges of immediate operands (30_encoding.md R102),
the effective address (43_memory_access.md R175), the extensions of 00_scope.md R8 and the counting functions of R12, R13. -/

namespace Sys2Proof.Machine

/-- `x[i]`, the unsigned read of a general register; x[0] is 0 (10_state.md R32, R33). -/
def State.getReg (s : State) (i : RegNum) : Word := if i = 0 then 0 else s.gpr[i.val]

/-- `sint32(x[i])`, the signed read (R32). -/
def State.getSigned (s : State) (i : RegNum) : Int := sint32 (s.getReg i)

/-- `x[i] <- v` of a pattern; a write of x[0] is discarded (R33, R34). -/
def State.setReg (s : State) (i : RegNum) (v : Word) : State :=
  if i = 0 then s else { s with gpr := s.gpr.set i.val v i.isLt }

/-- `$ra`, the only link register (44_control_flow.md R201). -/
def raReg : RegNum := 31

/-- The range of `addi` immediates and of memory offsets (30_encoding.md R102, 43_memory_access.md R175). -/
def legalSigned16 (v : Int) : Bool := decide (-32768 ≤ v) && decide (v ≤ 32767)

/-- The range of `lui` immediates (R102). -/
def legalUnsigned16 (v : Int) : Bool := decide (0 ≤ v) && decide (v ≤ 65535)

/-- The range of shift amounts (R102). -/
def legalShift (v : Int) : Bool := decide (0 ≤ v) && decide (v ≤ 31)

/-- `EA(base, offset) = uint32(x[base] + offset)`, the base read unsigned (43_memory_access.md R175); the range of the offset
is checked by the operation that uses it. -/
def effectiveAddress (s : State) (base : RegNum) (offset : Int) : Word := uint32 ((s.getReg base).toNat + offset)

/-- `sext_8` (00_scope.md R8). -/
def signExtend8 (b : Nat) : Word := (BitVec.ofNat 8 b).signExtend 32

/-- `zext_8` (00_scope.md R8). -/
def zeroExtend8 (b : Nat) : Word := (BitVec.ofNat 8 b).zeroExtend 32

/-- Counts the zero bits of `p` from bit `n - 1` down to the first 1 bit. -/
def leadingZerosBelow (p : Word) : Nat → Nat
  | 0 => 0
  | n + 1 => if p.getLsbD n then 0 else leadingZerosBelow p n + 1

/-- `clz32(p)`: scan from bit 31 down to the first 1 bit (00_scope.md R12). -/
def clz32 (p : Word) : Nat := leadingZerosBelow p 32

/-- `clo32(p) = clz32(p XOR 0xFFFFFFFF)` (00_scope.md R13). -/
def clo32 (p : Word) : Nat := clz32 (p ^^^ 0xFFFFFFFF)

end Sys2Proof.Machine
end

