-- ==== Sys2Proof/Machine/Ops.lean ====
section
/-! DEFINITION. The shared operations of the executor: taking a fault, the immediate check, the signed result, load and store,
the pc write and the link. They work on the state Execute is given, whose pc is already the instruction's address plus 4
(10_state.md R50, R52). Each reads the state it is given, checks every fault first and commits all its writes together
(R51). -/

namespace Sys2Proof.Machine

/-- The code of a fault kind (60_exceptions.md R225). -/
def FaultKind.code : FaultKind → Nat
  | .arithmeticOverflow => 1
  | .invalidImmediate => 2
  | .memoryAlignmentError => 3
  | .instructionFetchError => 4
  | .reservedInstruction => 5

/-- The address of the instruction being executed: Execute's pc is that address plus 4 (10_state.md R52). -/
def State.instrAddress (s : State) : Word := s.pc - 4

/-- Taking a fault, in the one way there is (60_exceptions.md R235): status <- Faulted(rec), where rec names the kind, the
faulting instruction's address and the kind's recorded addr (R226), and pc is that address again (R233; 10_state.md R50:
`pc = A, as before the step`). Nothing else changes, no vector is entered, and there is no return (R237). -/
def takeFault (s : State) (kind : FaultKind) (address recordedAddr : Word) : State :=
  { s with pc := address, status := .faulted ⟨kind, address, recordedAddr⟩ }

/-- `raise K(info)` inside Execute (00_scope.md R9), with the `err` case of R50's step: the instruction ends with the fault and
commits no write. Execute has written nothing and the advance is undone, so the state is the one before the step but for its
status (R50, 60_exceptions.md R233). -/
def raise (s : State) (kind : FaultKind) (recordedAddr : Word) : Result :=
  .next (takeFault s kind s.instrAddress recordedAddr)

/-- `if <immediate out of range>: raise InvalidImmediate`, then the rest (30_encoding.md R102, 60_exceptions.md R228): it comes
before every other fault of the instruction (R234). -/
def withLegal (legal : Bool) (s : State) (rest : Result) : Result :=
  if legal then rest else raise s .invalidImmediate 0

/-- The end of `add`, `addi` and `sub`: an exact result out of the signed 32-bit range raises ArithmeticOverflow, even for
destination 0; one in the range is written (40_arithmetic.md R140, R142, R143). -/
def writeSigned (s : State) (dest : RegNum) (exact : Int) : Result :=
  if fitsSigned32 exact then .next (s.setReg dest (uint32 exact)) else raise s .arithmeticOverflow 0

/-- `hi` and `lo` written together from the low 64 bits of a product (40_arithmetic.md R144). -/
def writeProduct (s : State) (exact : Int) : State :=
  { s with
    hi := (BitVec.ofInt 64 exact).extractLsb' 32 32
    lo := (BitVec.ofInt 64 exact).extractLsb' 0 32 }

/-- A load: the offset check, then the access, then the extended value into `rt` (43_memory_access.md R175 to R177). -/
def load (s : State) (w : Width) (extend : Nat → Word) (rt : RegNum) (offset : Int) (base : RegNum) : Result :=
  withLegal (legalSigned16 offset) s
    (match memRead s.endian s.mem (effectiveAddress s base offset) w with
    | some b => .next (s.setReg rt (extend b))
    | none => raise s .memoryAlignmentError (effectiveAddress s base offset))

/-- A store: the offset check, then the alignment check, then the bytes (43_memory_access.md R175, R178, R179). -/
def store (s : State) (w : Width) (rt : RegNum) (offset : Int) (base : RegNum) : Result :=
  withLegal (legalSigned16 offset) s
    (match memWrite s.endian s.mem (effectiveAddress s base offset) w ((s.getReg rt).toNat : Int) with
    | some m => .next { s with mem := m }
    | none => raise s .memoryAlignmentError (effectiveAddress s base offset))

/-- `pc <- target`, unchecked (00_scope.md R9, 44_control_flow.md R200). -/
def State.jumpTo (s : State) (target : Word) : State := { s with pc := target }

/-- The link: `x[31] <- pc`, then `pc <- target`, where the link value is the pc before the jump (44_control_flow.md R196,
R198). -/
def State.linkTo (s : State) (target : Word) : State := (s.setReg raReg s.pc).jumpTo target

end Sys2Proof.Machine
end

