-- ==== Sys2Proof/Machine/Arithmetic.lean ====
section
/-! DEFINITION. The arithmetic instructions (40_arithmetic.md R140 to R145). -/

namespace Sys2Proof.Machine

/-- `add rd, rs, rt` (R140). -/
def execAdd (rd rs rt : RegNum) (s : State) : Result := writeSigned s rd (s.getSigned rs + s.getSigned rt)

/-- `addu rd, rs, rt` (R141): `uint32(x[rs] + x[rt])`, never a fault. -/
def execAddu (rd rs rt : RegNum) (s : State) : Result := .next (s.setReg rd (s.getReg rs + s.getReg rt))

/-- `addi rt, rs, imm` (R142): the immediate is checked first. -/
def execAddi (rt rs : RegNum) (imm : Int) (s : State) : Result :=
  withLegal (legalSigned16 imm) s (writeSigned s rt (s.getSigned rs + imm))

/-- `sub rd, rs, rt` (R143). -/
def execSub (rd rs rt : RegNum) (s : State) : Result := writeSigned s rd (s.getSigned rs - s.getSigned rt)

/-- `mult rs, rt` (R144): the exact signed product; no general register is written. -/
def execMult (rs rt : RegNum) (s : State) : Result := .next (writeProduct s (s.getSigned rs * s.getSigned rt))

end Sys2Proof.Machine
end

