-- ==== Sys2Proof/Machine/BitCounting.lean ====
section
/-! DEFINITION. The bit-counting instructions (45_bit_counting.md R215, R216). -/

namespace Sys2Proof.Machine

/-- `clz rd, rs` (R215). -/
def execClz (rd rs : RegNum) (s : State) : Result := .next (s.setReg rd (BitVec.ofNat 32 (clz32 (s.getReg rs))))

/-- `clo rd, rs` (R216). -/
def execClo (rd rs : RegNum) (s : State) : Result := .next (s.setReg rd (BitVec.ofNat 32 (clo32 (s.getReg rs))))

end Sys2Proof.Machine
end

