-- ==== Sys2Proof/Machine/Compare.lean ====
section
/-! DEFINITION. The compare instruction (42_compare.md R170). -/

namespace Sys2Proof.Machine

/-- `slt rd, rs, rt` (R170): a signed comparison. -/
def execSlt (rd rs rt : RegNum) (s : State) : Result :=
  .next (s.setReg rd (if s.getSigned rs < s.getSigned rt then 1 else 0))

end Sys2Proof.Machine
end

