-- ==== Sys2Proof/Machine/ControlFlow.lean ====
section
/-! DEFINITION. The control-flow instructions (44_control_flow.md R195 to R201). Targets are not checked here (R200), and there
is no delay slot (70_reset_and_hazards.md R262). A transfer that is not taken leaves pc as it is: it falls through
(10_state.md R53). -/

namespace Sys2Proof.Machine

/-- `j target` (R195). -/
def execJ (target : Word) (s : State) : Result := .next (s.jumpTo target)

/-- `jal target` (R196). -/
def execJal (target : Word) (s : State) : Result := .next (s.linkTo target)

/-- `bgez rs, target` (R197). -/
def execBgez (rs : RegNum) (target : Word) (s : State) : Result :=
  .next (if s.getSigned rs ≥ 0 then s.jumpTo target else s)

/-- `bgezal rs, target` (R198): the condition reads the old `$ra`; not taken, neither `$ra` nor pc changes. -/
def execBgezal (rs : RegNum) (target : Word) (s : State) : Result :=
  .next (if s.getSigned rs ≥ 0 then s.linkTo target else s)

/-- `blez rs, target` (R199). -/
def execBlez (rs : RegNum) (target : Word) (s : State) : Result :=
  .next (if s.getSigned rs ≤ 0 then s.jumpTo target else s)

end Sys2Proof.Machine
end

