-- ==== Sys2Proof/Machine/MemoryAccess.lean ====
section
/-! DEFINITION. The memory access instructions and `lui` (43_memory_access.md R175 to R180). -/

namespace Sys2Proof.Machine

/-- `lb rt, offset(base)` (R176). -/
def execLb (rt : RegNum) (offset : Int) (base : RegNum) (s : State) : Result := load s .byte signExtend8 rt offset base

/-- `lbu rt, offset(base)` (R177). -/
def execLbu (rt : RegNum) (offset : Int) (base : RegNum) (s : State) : Result := load s .byte zeroExtend8 rt offset base

/-- `sh rt, offset(base)` (R178). -/
def execSh (rt : RegNum) (offset : Int) (base : RegNum) (s : State) : Result := store s .half rt offset base

/-- `sw rt, offset(base)` (R179). -/
def execSw (rt : RegNum) (offset : Int) (base : RegNum) (s : State) : Result := store s .word rt offset base

/-- `lui rt, imm` (R180): `imm << 16`, no memory is accessed. -/
def execLui (rt : RegNum) (imm : Int) (s : State) : Result :=
  withLegal (legalUnsigned16 imm) s (.next (s.setReg rt (uint32 imm <<< 16)))

end Sys2Proof.Machine
end

