-- ==== Sys2Proof/Machine/Shift.lean ====
section
/-! DEFINITION. The shift instructions (41_shift.md R160 to R162). -/

namespace Sys2Proof.Machine

/-- `sll rd, rt, sa` (R160). -/
def execSll (rd rt : RegNum) (sa : Int) (s : State) : Result :=
  withLegal (legalShift sa) s (.next (s.setReg rd (s.getReg rt <<< sa.toNat)))

/-- `srl rd, rt, sa` (R161): zero-fill, whatever the sign of the source. -/
def execSrl (rd rt : RegNum) (sa : Int) (s : State) : Result :=
  withLegal (legalShift sa) s (.next (s.setReg rd (s.getReg rt >>> sa.toNat)))

/-- `srav rd, rt, rs` (R162): the amount is `x[rs][4:0]`, the vacated bits copy bit 31 of x[rt]. -/
def execSrav (rd rt rs : RegNum) (s : State) : Result :=
  .next (s.setReg rd ((s.getReg rt).sshiftRight ((s.getReg rs).extractLsb' 0 5).toNat))

end Sys2Proof.Machine
end

