-- ==== Sys2Proof/Machine/Dispatch.lean ====
section
/-! DEFINITION. Execute(I, s) of 10_state.md R48: one arm for each instruction term. The state it is given has the advanced pc
(R52). -/

namespace Sys2Proof.Machine

def exec (i : Instr) (s : State) : Host.Outcome State Fault Refusal :=
  match i with
  -- arithmetic (40_arithmetic.md)
  | .add rd rs rt => Sys2Proof.Machine.execAdd rd rs rt s
  | .addu rd rs rt => Sys2Proof.Machine.execAddu rd rs rt s
  | .addi rt rs imm => Sys2Proof.Machine.execAddi rt rs imm s
  | .sub rd rs rt => Sys2Proof.Machine.execSub rd rs rt s
  | .mult rs rt => Sys2Proof.Machine.execMult rs rt s
  -- shift (41_shift.md)
  | .sll rd rt sa => Sys2Proof.Machine.execSll rd rt sa s
  | .srl rd rt sa => Sys2Proof.Machine.execSrl rd rt sa s
  | .srav rd rt rs => Sys2Proof.Machine.execSrav rd rt rs s
  -- compare (42_compare.md)
  | .slt rd rs rt => Sys2Proof.Machine.execSlt rd rs rt s
  -- memory access (43_memory_access.md)
  | .lb rt offset base => Sys2Proof.Machine.execLb rt offset base s
  | .lbu rt offset base => Sys2Proof.Machine.execLbu rt offset base s
  | .sh rt offset base => Sys2Proof.Machine.execSh rt offset base s
  | .sw rt offset base => Sys2Proof.Machine.execSw rt offset base s
  | .lui rt imm => Sys2Proof.Machine.execLui rt imm s
  -- control flow (44_control_flow.md)
  | .j target => Sys2Proof.Machine.execJ target s
  | .jal target => Sys2Proof.Machine.execJal target s
  | .bgez rs target => Sys2Proof.Machine.execBgez rs target s
  | .bgezal rs target => Sys2Proof.Machine.execBgezal rs target s
  | .blez rs target => Sys2Proof.Machine.execBlez rs target s
  -- bit counting (45_bit_counting.md)
  | .clz rd rs => Sys2Proof.Machine.execClz rd rs s
  | .clo rd rs => Sys2Proof.Machine.execClo rd rs s

end Sys2Proof.Machine
end

