-- ==== Sys2Proof/WellFormed.lean ====
section
/-! DEFINITION. Two checks on instruction terms. `Instr.wf`: every immediate lies in the legal range of 30_encoding.md R102.
`Instr.encodableAt`: the term has a binary word at an address (30_encoding.md R110). Neither restricts what runs: a term that
fails `wf` runs and raises InvalidImmediate (R102), and a term with no word runs at the term level (R110). -/

namespace Sys2Proof

/-- A 16-bit signed immediate: -32768 .. 32767 (R102: `addi`, memory offsets). -/
def isSigned16 (v : Int) : Bool := decide (-32768 ≤ v ∧ v ≤ 32767)

/-- A 16-bit unsigned immediate: 0 .. 65535 (R102: `lui`). -/
def isUnsigned16 (v : Int) : Bool := decide (0 ≤ v ∧ v ≤ 65535)

/-- A 5-bit unsigned shift amount: 0 .. 31 (R102: `sll`, `srl`). -/
def isUnsigned5 (v : Int) : Bool := decide (0 ≤ v ∧ v ≤ 31)

/-- Every immediate of the term is in its legal range (R102). -/
def Instr.wf : Instr → Bool
  | .addi _ _ imm => isSigned16 imm
  | .sll _ _ sa => isUnsigned5 sa
  | .srl _ _ sa => isUnsigned5 sa
  | .lb _ offset _ => isSigned16 offset
  | .lbu _ offset _ => isSigned16 offset
  | .sh _ offset _ => isSigned16 offset
  | .sw _ offset _ => isSigned16 offset
  | .lui _ imm => isUnsigned16 imm
  | .add _ _ _ | .addu _ _ _ | .sub _ _ _ | .mult _ _ | .srav _ _ _ | .slt _ _ _ | .j _ | .jal _ | .bgez _ _
  | .bgezal _ _ | .blez _ _ | .clz _ _ | .clo _ _ => true

/-- `d = sint32(uint32(target - A - 4))`: the distance of a B-form target from the address after the branch (R110). -/
def branchDistance (A target : Word) : Int := sint32 (target - A - 4)

/-- The B-form condition of R110: `d` is a multiple of 4 and `d/4` fits a 16-bit signed field. -/
def branchReaches (A target : Word) : Bool :=
  decide (branchDistance A target % 4 = 0) && isSigned16 (branchDistance A target / 4)

/-- The J-form condition of R110: the target is 4-aligned and lies in the region of the address after the jump. -/
def jumpReaches (A target : Word) : Bool :=
  decide (target.extractLsb' 0 2 = 0) && decide (target.extractLsb' 28 4 = (A + 4).extractLsb' 28 4)

/-- The term has a 32-bit word at address A: the four conditions of R110 (the last, `rt := rd` of `clz` and `clo`, is what
the encoder does and refuses nothing). -/
def Instr.encodableAt (A : Word) (i : Instr) : Bool :=
  i.wf &&
    match i with
    | .j target => jumpReaches A target
    | .jal target => jumpReaches A target
    | .bgez _ target => branchReaches A target
    | .bgezal _ target => branchReaches A target
    | .blez _ target => branchReaches A target
    | .add _ _ _ | .addu _ _ _ | .addi _ _ _ | .sub _ _ _ | .mult _ _ | .sll _ _ _ | .srl _ _ _ | .srav _ _ _
    | .slt _ _ _ | .lb _ _ _ | .lbu _ _ _ | .sh _ _ _ | .sw _ _ _ | .lui _ _ | .clz _ _ | .clo _ _ => true

end Sys2Proof
end

