-- ==== Sys2Proof/Decode.lean ====
section
/-! DEFINITION. The optional binary layer (30_encoding.md section 2): the opcode map, the decoder and, after it, the encoder.
The decoder is total on 32-bit words and rejects a reserved word by name (R109, R111). Every instruction is one word of
fixed length, held as a word value and not as bytes, so no byte order applies (R112, 20_memory.md R79). The spec marks the
whole layer as general knowledge of MIPS32 (log entry 8). -/

namespace Sys2Proof

/-- The 21 mnemonics of 00_scope.md R2, one for each row of spec/opcode_table.json, in the table's order. -/
inductive Mnemonic where
  | add | addu | addi | sub | mult | sll | srl | srav | slt | lb | lbu | sh | sw | lui | j | jal | bgez | bgezal | blez
  | clz | clo
deriving DecidableEq, Repr

/-- The mnemonic of a term (30_encoding.md R101). -/
def Instr.mnemonic : Instr → Mnemonic
  | .add _ _ _ => .add
  | .addu _ _ _ => .addu
  | .addi _ _ _ => .addi
  | .sub _ _ _ => .sub
  | .mult _ _ => .mult
  | .sll _ _ _ => .sll
  | .srl _ _ _ => .srl
  | .srav _ _ _ => .srav
  | .slt _ _ _ => .slt
  | .lb _ _ _ => .lb
  | .lbu _ _ _ => .lbu
  | .sh _ _ _ => .sh
  | .sw _ _ _ => .sw
  | .lui _ _ => .lui
  | .j _ => .j
  | .jal _ => .jal
  | .bgez _ _ => .bgez
  | .bgezal _ _ => .bgezal
  | .blez _ _ => .blez
  | .clz _ _ => .clz
  | .clo _ _ => .clo

/-- The table's rows in order. -/
def Mnemonic.all : List Mnemonic :=
  [.add, .addu, .addi, .sub, .mult, .sll, .srl, .srav, .slt, .lb, .lbu, .sh, .sw, .lui, .j, .jal, .bgez, .bgezal, .blez,
    .clz, .clo]

/-- The bits a row fixes (the `mask` column of opcode_table.json; R108's selector and must-be-zero fields). -/
def Mnemonic.mask : Mnemonic → Word
  | .add => 0xFC0007FF
  | .addu => 0xFC0007FF
  | .addi => 0xFC000000
  | .sub => 0xFC0007FF
  | .mult => 0xFC00FFFF
  | .sll => 0xFFE0003F
  | .srl => 0xFFE0003F
  | .srav => 0xFC0007FF
  | .slt => 0xFC0007FF
  | .lb => 0xFC000000
  | .lbu => 0xFC000000
  | .sh => 0xFC000000
  | .sw => 0xFC000000
  | .lui => 0xFFE00000
  | .j => 0xFC000000
  | .jal => 0xFC000000
  | .bgez => 0xFC1F0000
  | .bgezal => 0xFC1F0000
  | .blez => 0xFC1F0000
  | .clz => 0xFC0007FF
  | .clo => 0xFC0007FF

/-- The value of the fixed bits (the `match` column of opcode_table.json; R108). -/
def Mnemonic.pattern : Mnemonic → Word
  | .add => 0x00000020
  | .addu => 0x00000021
  | .addi => 0x20000000
  | .sub => 0x00000022
  | .mult => 0x00000018
  | .sll => 0x00000000
  | .srl => 0x00000002
  | .srav => 0x00000007
  | .slt => 0x0000002A
  | .lb => 0x80000000
  | .lbu => 0x90000000
  | .sh => 0xA4000000
  | .sw => 0xAC000000
  | .lui => 0x3C000000
  | .j => 0x08000000
  | .jal => 0x0C000000
  | .bgez => 0x04010000
  | .bgezal => 0x04110000
  | .blez => 0x18000000
  | .clz => 0x70000020
  | .clo => 0x70000021

/-- The word matches the row: its fixed bits have the row's value (R108). -/
def Mnemonic.matchesWord (m : Mnemonic) (w : Word) : Bool := decide (w &&& m.mask = m.pattern)

/-- The row a word matches, if any (R108, R111). -/
def rowOf (w : Word) : Option Mnemonic := Mnemonic.all.find? fun m => m.matchesWord w

/-- R105: the fields of a word. -/
def rsField (w : Word) : BitVec 5 := w.extractLsb' 21 5
def rtField (w : Word) : BitVec 5 := w.extractLsb' 16 5
def rdField (w : Word) : BitVec 5 := w.extractLsb' 11 5
def saField (w : Word) : BitVec 5 := w.extractLsb' 6 5
def immField (w : Word) : BitVec 16 := w.extractLsb' 0 16
def indexField (w : Word) : BitVec 26 := w.extractLsb' 0 26

/-- A register field is a register number (R107). -/
def regOf (f : BitVec 5) : RegNum := ⟨f.toNat, f.isLt⟩

/-- `sint32(sext_16(f))`, an Int in -32768..32767 (R107). -/
def signedImm (f : BitVec 16) : Int := f.toInt

/-- The 16-bit field read unsigned, an Int in 0..65535 (R107: `lui`). -/
def unsignedImm (f : BitVec 16) : Int := (f.toNat : Int)

/-- The shift amount, `zext_5` of the sa field (R107). -/
def shiftImm (f : BitVec 5) : Int := (f.toNat : Int)

/-- `uint32(A + 4 + 4 * sint32(sext_16(f)))`: the B-form target (R107). -/
def branchTarget (A : Word) (f : BitVec 16) : Word := uint32 ((A.toNat : Int) + 4 + 4 * signedImm f)

/-- `uint32(A + 4)[31:28] || f || 00`: the J-form target (R107). -/
def jumpTarget (A : Word) (f : BitVec 26) : Word := (A + 4).extractLsb' 28 4 ++ f ++ 0#2

/-- The term a word of row `m` stands for at address A, its operands taken from the fields (R107). -/
def Mnemonic.term (A w : Word) : Mnemonic → Instr
  | .add => .add (regOf (rdField w)) (regOf (rsField w)) (regOf (rtField w))
  | .addu => .addu (regOf (rdField w)) (regOf (rsField w)) (regOf (rtField w))
  | .addi => .addi (regOf (rtField w)) (regOf (rsField w)) (signedImm (immField w))
  | .sub => .sub (regOf (rdField w)) (regOf (rsField w)) (regOf (rtField w))
  | .mult => .mult (regOf (rsField w)) (regOf (rtField w))
  | .sll => .sll (regOf (rdField w)) (regOf (rtField w)) (shiftImm (saField w))
  | .srl => .srl (regOf (rdField w)) (regOf (rtField w)) (shiftImm (saField w))
  | .srav => .srav (regOf (rdField w)) (regOf (rtField w)) (regOf (rsField w))
  | .slt => .slt (regOf (rdField w)) (regOf (rsField w)) (regOf (rtField w))
  | .lb => .lb (regOf (rtField w)) (signedImm (immField w)) (regOf (rsField w))
  | .lbu => .lbu (regOf (rtField w)) (signedImm (immField w)) (regOf (rsField w))
  | .sh => .sh (regOf (rtField w)) (signedImm (immField w)) (regOf (rsField w))
  | .sw => .sw (regOf (rtField w)) (signedImm (immField w)) (regOf (rsField w))
  | .lui => .lui (regOf (rtField w)) (unsignedImm (immField w))
  | .j => .j (jumpTarget A (indexField w))
  | .jal => .jal (jumpTarget A (indexField w))
  | .bgez => .bgez (regOf (rsField w)) (branchTarget A (immField w))
  | .bgezal => .bgezal (regOf (rsField w)) (branchTarget A (immField w))
  | .blez => .blez (regOf (rsField w)) (branchTarget A (immField w))
  | .clz => .clz (regOf (rdField w)) (regOf (rsField w))
  | .clo => .clo (regOf (rdField w)) (regOf (rsField w))

/-- R108: a word of the `clz` or `clo` row needs rt equal to rd; the other rows need nothing beyond their fixed bits. -/
def Mnemonic.needsRtEqRd : Mnemonic → Bool
  | .clz | .clo => true
  | .add | .addu | .addi | .sub | .mult | .sll | .srl | .srav | .slt | .lb | .lbu | .sh | .sw | .lui | .j | .jal | .bgez
  | .bgezal | .blez => false

/-- Why a word is reserved (R109). -/
inductive DecodeReject where
  /-- no row of R108 has the word's fixed bits (a must-be-zero field that is not zero is this case) -/
  | noRow
  /-- a `clz` or `clo` word whose rt field differs from its rd field -/
  | countRtNotRd
deriving DecidableEq, Repr

/-- R107 to R109, R111: the term a word fetched from address A decodes to, or the reason it is reserved. -/
def decode (A w : Word) : Except DecodeReject Instr :=
  match rowOf w with
  | none => .error .noRow
  | some m => if m.needsRtEqRd && rtField w != rdField w then .error .countRtNotRd else .ok (m.term A w)

/-- The decoder asked about a row of opcode_table.json: the word's bits above `nbits` are 0. A word of more than 32 bits is
no instruction (R112). The targets of B- and J-forms depend on the address (R107): here it is the address the reset state
fetches from (log entry 7). -/
def decodeTableWord (nbits w : Nat) : Option Instr :=
  if nbits ≤ 32 then
    match decode Config.resetProgBase (BitVec.ofNat 32 (w % 2 ^ nbits)) with
    | .ok i => some i
    | .error _ => none
  else none

/-! ## The encoder (30_encoding.md R106, R108, R110) -/

/-- The field of a register number. -/
def regBits (r : RegNum) : BitVec 5 := BitVec.ofNat 5 r.val

/-- The R-type format of R106. -/
def rType (op : BitVec 6) (rs rt rd sa : BitVec 5) (funct : BitVec 6) : Word := op ++ rs ++ rt ++ rd ++ sa ++ funct

/-- The I-type format of R106. -/
def iType (op : BitVec 6) (rs rt : BitVec 5) (imm : BitVec 16) : Word := op ++ rs ++ rt ++ imm

/-- The J-type format of R106. -/
def jType (op : BitVec 6) (index : BitVec 26) : Word := op ++ index

/-- The 16-bit offset field of a B-form: the distance from the address after the branch, in words (R107, R110). -/
def branchField (A target : Word) : BitVec 16 := BitVec.ofInt 16 (branchDistance A target / 4)

/-- The word of a term at address A, with no check that the term is encodable (R106, R108). -/
def Instr.word (A : Word) : Instr → Word
  | .add rd rs rt => rType 0b000000 (regBits rs) (regBits rt) (regBits rd) 0 0b100000
  | .addu rd rs rt => rType 0b000000 (regBits rs) (regBits rt) (regBits rd) 0 0b100001
  | .addi rt rs imm => iType 0b001000 (regBits rs) (regBits rt) (BitVec.ofInt 16 imm)
  | .sub rd rs rt => rType 0b000000 (regBits rs) (regBits rt) (regBits rd) 0 0b100010
  | .mult rs rt => rType 0b000000 (regBits rs) (regBits rt) 0 0 0b011000
  | .sll rd rt sa => rType 0b000000 0 (regBits rt) (regBits rd) (BitVec.ofInt 5 sa) 0b000000
  | .srl rd rt sa => rType 0b000000 0 (regBits rt) (regBits rd) (BitVec.ofInt 5 sa) 0b000010
  | .srav rd rt rs => rType 0b000000 (regBits rs) (regBits rt) (regBits rd) 0 0b000111
  | .slt rd rs rt => rType 0b000000 (regBits rs) (regBits rt) (regBits rd) 0 0b101010
  | .lb rt offset base => iType 0b100000 (regBits base) (regBits rt) (BitVec.ofInt 16 offset)
  | .lbu rt offset base => iType 0b100100 (regBits base) (regBits rt) (BitVec.ofInt 16 offset)
  | .sh rt offset base => iType 0b101001 (regBits base) (regBits rt) (BitVec.ofInt 16 offset)
  | .sw rt offset base => iType 0b101011 (regBits base) (regBits rt) (BitVec.ofInt 16 offset)
  | .lui rt imm => iType 0b001111 0 (regBits rt) (BitVec.ofInt 16 imm)
  | .j target => jType 0b000010 (target.extractLsb' 2 26)
  | .jal target => jType 0b000011 (target.extractLsb' 2 26)
  | .bgez rs target => iType 0b000001 (regBits rs) 0b00001 (branchField A target)
  | .bgezal rs target => iType 0b000001 (regBits rs) 0b10001 (branchField A target)
  | .blez rs target => iType 0b000110 (regBits rs) 0b00000 (branchField A target)
  | .clz rd rs => rType 0b011100 (regBits rs) (regBits rd) (regBits rd) 0 0b100000
  | .clo rd rs => rType 0b011100 (regBits rs) (regBits rd) (regBits rd) 0 0b100001

/-- R110: encoding is partial; a term that fails a condition has no word. -/
def encode (A : Word) (i : Instr) : Option Word := if i.encodableAt A then some (i.word A) else none

end Sys2Proof
end

