-- ==== Sys2Proof/Machine/Fetch.lean ====
section
/-! DEFINITION. The fetch of 10_state.md R50 from the program store of R40: which entry an address names, PROG_END, and, in the
binary layer, the decoding of the entry's word (30_encoding.md R109). Data memory plays no part (20_memory.md R91). -/

namespace Sys2Proof.Machine

/-- The number of entries of the program store, n of 10_state.md R40. -/
def Program.length : Program → Nat
  | .terms l => l.length
  | .words l => l.length

/-- BINARY_LAYER (00_scope.md R6). -/
def Program.binaryLayer : Program → Bool
  | .terms _ => false
  | .words _ => true

/-- `PROG_END = uint32(PROG_BASE + 4*n)` (R40). -/
def State.progEnd (s : State) : Word := s.progBase + BitVec.ofNat 32 (4 * s.prog.length)

/-- The number k of the entry at address `A = PROG_BASE + 4*k` modulo 2^32, or none where A is no such address (R40). With
fewer than 2^30 entries there is at most one k (log entry 9). -/
def State.entryAt (s : State) (A : Word) : Option Nat :=
  let d := (A - s.progBase).toNat
  if d % 4 = 0 ∧ d / 4 < s.prog.length then some (d / 4) else none

/-- `PROG[A]`, decoded in the binary layer. The fault is InstructionFetchError where A holds no entry (R50, 60_exceptions.md
R230) and ReservedInstruction where the entry's word is reserved (30_encoding.md R109). -/
def State.fetch (s : State) (A : Word) : Except FaultKind Instr :=
  match s.entryAt A with
  | none => .error .instructionFetchError
  | some k =>
    match s.prog with
    | .terms l =>
      match l[k]? with
      | some i => .ok i
      | none => .error .instructionFetchError
    | .words l =>
      match l[k]? with
      | some w =>
        match decode A w with
        | .ok i => .ok i
        | .error _ => .error .reservedInstruction
      | none => .error .instructionFetchError

/-- `s1 <- s with pc := uint32(A + 4)`: the advance before Execute (R50, R54). -/
def State.advance (s : State) : State := { s with pc := s.pc + 4 }

/-- A fetch that faults: kind 4 or 5, recorded pc and addr the fetch address (60_exceptions.md R225, R226). -/
def fetchFault (s : State) (kind : FaultKind) : State := takeFault s kind s.pc s.pc

/-- The program store with one word, placed at the pc, in a run that steps. -/
def State.loadWordAtPc (s : State) (w : Word) : State :=
  { s with progBase := s.pc, prog := .words [w], status := .running }

end Sys2Proof.Machine
end

