-- ==== Sys2Proof/Machine/Step.lean ====
section
/-! DEFINITION. One step of the block (10_state.md R50). Only a Running state steps (R41). A fault of the instruction or of
the fetch is a next state whose status is Faulted (60_exceptions.md R235). -/

namespace Sys2Proof.Machine

/-- Step(s) (10_state.md R50). From Halted or Faulted there is no step, which the model answers by name (log entry 6). -/
def step (s : State) : Host.Outcome State Fault Refusal :=
  match s.status with
  | .halted => .fault .alreadyHalted
  | .faulted rec => .fault (.alreadyFaulted rec)
  | .running =>
    if s.pc = s.progEnd then .next { s with status := .halted }
    else
      match s.fetch s.pc with
      | .error kind => .next (fetchFault s kind)
      | .ok i => exec i s.advance

/-- The state with the given word loaded where `step` fetches next: the binary layer's program store holds that one word, at
the pc (log entry 7). It stands for the load of 70_reset_and_hazards.md R257. -/
def State.withFetchWord (s : State) (nbits w : Nat) : State := s.loadWordAtPc (BitVec.ofNat 32 (w % 2 ^ nbits))

end Sys2Proof.Machine
end

