-- ==== Sys2Proof/Machine/Assembler.lean ====
section
/-! DEFINITION. The names and the text of a program, all resolved before a run (10_state.md R31; 30_encoding.md R103, R104,
R113, R114; 60_exceptions.md R232). A line of assembler text becomes an instruction term or a load refusal. An immediate out
of range is no refusal here: it faults at run time (R232). `step` calls none of this. -/

namespace Sys2Proof.Machine

/-- The load refusals of 60_exceptions.md R232: a program with one of these defects is not loaded and has no run. -/
inductive LoadRefusal where
  /-- an operand name outside 10_state.md R31; `pc`, `hi` and `lo` as operands are this case -/
  | unknownRegister (name : String)
  /-- a mnemonic not in 00_scope.md R2, every pseudo-instruction among them (30_encoding.md R114) -/
  | unknownMnemonic (name : String)
  /-- a label not in the table (30_encoding.md R103) -/
  | unresolvedLabel (name : String)
  /-- a second `add_label` of one name (20_memory.md R82) -/
  | duplicateLabel (name : String)
  /-- a label, target or add_byte address outside 0..2^32-1 -/
  | badAddress (address : Int)
  /-- an add_byte value outside 0..255 -/
  | badByte (value : Int)
  /-- binary layer only: the term has no word at its address (30_encoding.md R110) -/
  | unencodable (i : Instr) (address : Word)
  /-- DESIGN CHOICE, safe: a line that is not of R113's syntax; the spec names no refusal for it (log entry 11) -/
  | badSyntax
  /-- DESIGN CHOICE, safe: a PROG_BASE that is not 4-aligned (00_scope.md R6 requires it); the spec names no refusal for it
  (log entry 10) -/
  | badProgBase (base : Word)
deriving DecidableEq, Repr

/-- The ABI names of 10_state.md R31, numbers 0 to 15. -/
def lowNames : List (String × RegNum) :=
  [("$zero", 0), ("$at", 1), ("$v0", 2), ("$v1", 3), ("$a0", 4), ("$a1", 5), ("$a2", 6), ("$a3", 7),
    ("$t0", 8), ("$t1", 9), ("$t2", 10), ("$t3", 11), ("$t4", 12), ("$t5", 13), ("$t6", 14), ("$t7", 15)]

/-- The ABI names of R31, numbers 16 to 31. -/
def highNames : List (String × RegNum) :=
  [("$s0", 16), ("$s1", 17), ("$s2", 18), ("$s3", 19), ("$s4", 20), ("$s5", 21), ("$s6", 22), ("$s7", 23),
    ("$t8", 24), ("$t9", 25), ("$k0", 26), ("$k1", 27), ("$gp", 28), ("$sp", 29), ("$fp", 30), ("$ra", 31)]

/-- The ordinal names `$0` to `$15`. -/
def lowOrdinals : List (String × RegNum) :=
  [("$0", 0), ("$1", 1), ("$2", 2), ("$3", 3), ("$4", 4), ("$5", 5), ("$6", 6), ("$7", 7),
    ("$8", 8), ("$9", 9), ("$10", 10), ("$11", 11), ("$12", 12), ("$13", 13), ("$14", 14), ("$15", 15)]

/-- The ordinal names `$16` to `$31`. -/
def highOrdinals : List (String × RegNum) :=
  [("$16", 16), ("$17", 17), ("$18", 18), ("$19", 19), ("$20", 20), ("$21", 21), ("$22", 22), ("$23", 23),
    ("$24", 24), ("$25", 25), ("$26", 26), ("$27", 27), ("$28", 28), ("$29", 29), ("$30", 30), ("$31", 31)]

/-- The register names of R31, the spec's general-knowledge table. -/
def registerNames : List (String × RegNum) := lowNames ++ highNames ++ lowOrdinals ++ highOrdinals

/-- What a name stands for in a table of names. -/
def lookupName {α : Type} : List (String × α) → String → Option α
  | [], _ => none
  | (n, v) :: rest, name => if n = name then some v else lookupName rest name

/-- Register names resolve by the table of R31 (30_encoding.md R104). -/
def registerOf (name : String) : Except LoadRefusal RegNum :=
  match lookupName registerNames name with
  | some r => .ok r
  | none => .error (.unknownRegister name)

/-- The mnemonics of 00_scope.md R2 as they are written. -/
def mnemonicNames : List (String × Mnemonic) :=
  [("add", .add), ("addu", .addu), ("addi", .addi), ("sub", .sub), ("mult", .mult), ("sll", .sll), ("srl", .srl),
    ("srav", .srav), ("slt", .slt), ("lb", .lb), ("lbu", .lbu), ("sh", .sh), ("sw", .sw), ("lui", .lui), ("j", .j),
    ("jal", .jal), ("bgez", .bgez), ("bgezal", .bgezal), ("blez", .blez), ("clz", .clz), ("clo", .clo)]

/-- The mnemonic of a name; a pseudo-instruction is no mnemonic (R114). -/
def mnemonicOf (name : String) : Except LoadRefusal Mnemonic :=
  match lookupName mnemonicNames name with
  | some m => .ok m
  | none => .error (.unknownMnemonic name)

/-! ## Reading text -/

def isBlank (c : Char) : Bool := c = ' ' || c = '\t'

def dropBlanks : List Char → List Char
  | c :: rest => if isBlank c then dropBlanks rest else c :: rest
  | [] => []

def trimBlanks (cs : List Char) : List Char := (dropBlanks (dropBlanks cs).reverse).reverse

/-- The characters before the first one that satisfies `stop`, and those from it on. -/
def spanUntil (stop : Char → Bool) : List Char → List Char × List Char
  | [] => ([], [])
  | c :: rest => if stop c then ([], c :: rest) else (c :: (spanUntil stop rest).1, (spanUntil stop rest).2)

/-- The pieces between separators. -/
def splitAtSep (sep : Char) : List Char → List (List Char)
  | [] => [[]]
  | c :: rest =>
    if c = sep then [] :: splitAtSep sep rest
    else
      match splitAtSep sep rest with
      | piece :: more => (c :: piece) :: more
      | [] => [[c]]

def decDigit (c : Char) : Option Nat := if '0' ≤ c ∧ c ≤ '9' then some (c.toNat - 48) else none

def hexDigit (c : Char) : Option Nat :=
  if '0' ≤ c ∧ c ≤ '9' then some (c.toNat - 48)
  else if 'a' ≤ c ∧ c ≤ 'f' then some (c.toNat - 87)
  else if 'A' ≤ c ∧ c ≤ 'F' then some (c.toNat - 55)
  else none

/-- The number written by digits, after `acc`. -/
def readDigits (radix : Nat) (digit : Char → Option Nat) : Nat → List Char → Option Nat
  | acc, [] => some acc
  | acc, c :: rest =>
    match digit c with
    | some d => readDigits radix digit (acc * radix + d) rest
    | none => none

/-- A decimal or a `0x`-prefixed hexadecimal number, with at least one digit. -/
def readNat : List Char → Option Nat
  | [] => none
  | '0' :: 'x' :: c :: rest => readDigits 16 hexDigit 0 (c :: rest)
  | c :: rest => readDigits 10 decDigit 0 (c :: rest)

/-- An immediate: a decimal or a `0x`-prefixed hexadecimal integer, optionally negative (R113). -/
def readInt : List Char → Option Int
  | '-' :: rest => (readNat rest).map fun n => -(n : Int)
  | cs => (readNat cs).map fun n => (n : Int)

/-- An immediate operand. -/
def immediateOf (token : List Char) : Except LoadRefusal Int :=
  match readInt token with
  | some v => .ok v
  | none => .error .badSyntax

/-- An address in 0..2^32-1 (R103, R232). -/
def addressOf (v : Int) : Except LoadRefusal Word :=
  if 0 ≤ v ∧ v < 2 ^ 32 then .ok (uint32 v) else .error (.badAddress v)

/-- `get_label(name)` (20_memory.md R82): a label not in the table is refused at load (30_encoding.md R103). -/
def getLabel (labels : List (String × Word)) (name : String) : Except LoadRefusal Word :=
  match lookupName labels name with
  | some a => .ok a
  | none => .error (.unresolvedLabel name)

/-- A target operand: a numeric address, or else a label name (R103, R113). -/
def targetOf (labels : List (String × Word)) (token : List Char) : Except LoadRefusal Word :=
  match readInt token with
  | some v => addressOf v
  | none => getLabel labels (String.ofList token)

/-- A register operand. -/
def registerToken (token : List Char) : Except LoadRefusal RegNum := registerOf (String.ofList token)

/-- The M-form operand `offset(base)` (R113). -/
def memoryOperand (token : List Char) : Except LoadRefusal (Int × RegNum) :=
  match spanUntil (fun c => c = '(') token with
  | (offset, '(' :: rest) =>
    match spanUntil (fun c => c = ')') rest with
    | (base, [')']) => do
      let v ← immediateOf (trimBlanks offset)
      let r ← registerToken (trimBlanks base)
      return (v, r)
    | _ => .error .badSyntax
  | _ => .error .badSyntax

/-- The R3 form `mn rd, rs, rt` (R113). -/
def assembleR3 (make : RegNum → RegNum → RegNum → Instr) : List (List Char) → Except LoadRefusal Instr
  | [a, b, c] => do
    let rd ← registerToken a
    let rs ← registerToken b
    let rt ← registerToken c
    return make rd rs rt
  | _ => .error .badSyntax

/-- The R2 and C forms, two registers (R113). -/
def assembleR2 (make : RegNum → RegNum → Instr) : List (List Char) → Except LoadRefusal Instr
  | [a, b] => do
    let r ← registerToken a
    let q ← registerToken b
    return make r q
  | _ => .error .badSyntax

/-- The SH and I forms, two registers and an immediate (R113). -/
def assembleImm (make : RegNum → RegNum → Int → Instr) : List (List Char) → Except LoadRefusal Instr
  | [a, b, c] => do
    let r ← registerToken a
    let q ← registerToken b
    let v ← immediateOf c
    return make r q v
  | _ => .error .badSyntax

/-- The U form `mn rt, imm` (R113). -/
def assembleU (make : RegNum → Int → Instr) : List (List Char) → Except LoadRefusal Instr
  | [a, b] => do
    let r ← registerToken a
    let v ← immediateOf b
    return make r v
  | _ => .error .badSyntax

/-- The M form `mn rt, offset(base)` (R113). -/
def assembleM (make : RegNum → Int → RegNum → Instr) : List (List Char) → Except LoadRefusal Instr
  | [a, b] => do
    let r ← registerToken a
    let (v, q) ← memoryOperand b
    return make r v q
  | _ => .error .badSyntax

/-- The J form `mn target` (R113). -/
def assembleJ (labels : List (String × Word)) (make : Word → Instr) : List (List Char) → Except LoadRefusal Instr
  | [a] => do
    let t ← targetOf labels a
    return make t
  | _ => .error .badSyntax

/-- The B form `mn rs, target` (R113). -/
def assembleB (labels : List (String × Word)) (make : RegNum → Word → Instr) :
    List (List Char) → Except LoadRefusal Instr
  | [a, b] => do
    let r ← registerToken a
    let t ← targetOf labels b
    return make r t
  | _ => .error .badSyntax

/-- The operands of a mnemonic, in assembler order (30_encoding.md R101, R113). -/
def assembleOperands (labels : List (String × Word)) (m : Mnemonic) (args : List (List Char)) :
    Except LoadRefusal Instr :=
  match m with
  | .add => assembleR3 .add args
  | .addu => assembleR3 .addu args
  | .addi => assembleImm .addi args
  | .sub => assembleR3 .sub args
  | .mult => assembleR2 .mult args
  | .sll => assembleImm .sll args
  | .srl => assembleImm .srl args
  | .srav => assembleR3 .srav args
  | .slt => assembleR3 .slt args
  | .lb => assembleM .lb args
  | .lbu => assembleM .lbu args
  | .sh => assembleM .sh args
  | .sw => assembleM .sw args
  | .lui => assembleU .lui args
  | .j => assembleJ labels .j args
  | .jal => assembleJ labels .jal args
  | .bgez => assembleB labels .bgez args
  | .bgezal => assembleB labels .bgezal args
  | .blez => assembleB labels .blez args
  | .clz => assembleR2 .clz args
  | .clo => assembleR2 .clo args

/-- One line of assembler text: a mnemonic, then operands separated by commas (R113). -/
def assembleLine (labels : List (String × Word)) (line : String) : Except LoadRefusal Instr :=
  let (name, rest) := spanUntil isBlank (trimBlanks line.toList)
  let rest := trimBlanks rest
  let args := if rest = [] then [] else (splitAtSep ',' rest).map trimBlanks
  do
    let m ← mnemonicOf (String.ofList name)
    assembleOperands labels m args

/-- A program of assembler text, line by line; the first refusal refuses it (R232). -/
def assembleText (labels : List (String × Word)) : List String → Except LoadRefusal (List Instr)
  | [] => .ok []
  | line :: rest => do
    let i ← assembleLine labels line
    let more ← assembleText labels rest
    return i :: more

/-- The words of a program placed from address A up; a term with no word refuses it (30_encoding.md R110). -/
def encodeProgram (A : Word) : List Instr → Except LoadRefusal (List Word)
  | [] => .ok []
  | i :: rest =>
    match encode A i with
    | none => .error (.unencodable i A)
    | some w => do
      let more ← encodeProgram (A + 4) rest
      return w :: more

end Sys2Proof.Machine
end

