-- ==== Sys2Proof/Machine/Ports.lean ====
section
/-! DEFINITION. The ports of the block (10_state.md R32, R34, R45, R46): get and set on the general registers, pc, hi and lo,
read and write on memory. The host may use them only while the status is not Running (R45; log entry 12): after the run
through `hostGet`, `hostSet`, `hostRead` and `hostWrite` here, before it through the Setup ports of Machine/Loader.lean.
`step` calls none of this. -/

namespace Sys2Proof.Machine

/-- What a port may name: GPR 0 to 31, pc, hi, lo (R45). -/
inductive PortReg where
  | gpr (i : RegNum)
  | pc
  | hi
  | lo
deriving DecidableEq, Repr

/-- The caller's interpretation of a stored pattern (R32). -/
inductive ReadMode where
  | unsigned
  | signed
deriving DecidableEq, Repr

/-- The stored pattern of a port register (R32, R45). -/
def State.portPattern (s : State) : PortReg → Word
  | .gpr i => s.getReg i
  | .pc => s.pc
  | .hi => s.hi
  | .lo => s.lo

/-- `get(r, mode)` (R32): the pattern p, or `sint32(p)`. -/
def State.portGet (s : State) (r : PortReg) : ReadMode → Int
  | .unsigned => (s.portPattern r).toNat
  | .signed => sint32 (s.portPattern r)

/-- `set(r, v)` (R34, R45): stores `uint32(v)`; a set of x[0] is discarded (R33). -/
def State.portSet (s : State) (r : PortReg) (v : Int) : State :=
  match r with
  | .gpr i => s.setReg i (uint32 v)
  | .pc => { s with pc := uint32 v }
  | .hi => { s with hi := uint32 v }
  | .lo => { s with lo := uint32 v }

/-- The host's turn: the status is not Running (R45). -/
def State.hostMayAccess (s : State) : Bool := decide (s.status ≠ .running)

/-- The host's `get`; none while the block is Running. -/
def State.hostGet (s : State) (r : PortReg) (mode : ReadMode) : Option Int :=
  if s.hostMayAccess then some (s.portGet r mode) else none

/-- The host's `set`; none while the block is Running. -/
def State.hostSet (s : State) (r : PortReg) (v : Int) : Option State :=
  if s.hostMayAccess then some (s.portSet r v) else none

/-- The host's `read(a, w)` (R46, 20_memory.md R74, R83); none while Running or where the access is misaligned. -/
def State.hostRead (s : State) (a : Word) (w : Width) : Option Nat :=
  if s.hostMayAccess then memRead s.endian s.mem a w else none

/-- The host's `write(a, v, w)` (R46, 20_memory.md R76); none while Running or where the access is misaligned. -/
def State.hostWrite (s : State) (a : Word) (v : Int) (w : Width) : Option State :=
  if s.hostMayAccess then (memWrite s.endian s.mem a w v).map fun m => { s with mem := m } else none

end Sys2Proof.Machine
end

