-- ==== Sys2Proof/Machine/Loader.lean ====
section
/-! DEFINITION. Reset and boot: how a run is built (10_state.md R47, R55; 20_memory.md R81, R82; 70_reset_and_hazards.md R255
to R257). A Setup is a run that has not started; the loader and the host act on it, and `Setup.start` gives the state of
the first step. `step` calls none of this. -/

namespace Sys2Proof.Machine

/-- A run being built (R257 steps 1 to 4). It is not Running, and the host's ports are `Setup.get`, `Setup.set`, `Setup.read` and
`Setup.write` (10_state.md R45, R46): the status of `machine` is not looked at before the start. `pcSet` says that the host has
set `pc`; otherwise RESET_PC is PROG_BASE (00_scope.md R6). -/
structure Setup where
  machine : State
  pcSet : Bool
deriving DecidableEq, Repr

/-- Step 1 of R257, and R255: a fresh register file with the values of INIT_REGS, a fresh memory with its ENDIAN and
MEM_INIT, no label, no program. -/
def Setup.construct (endian : Endian) (init : MemInit) (initRegs : Vector Word 32) (initHi initLo : Word) : Setup where
  machine :=
    { State.reset with
      endian := endian
      mem := ⟨init, []⟩
      gpr := initRegs.set 0 0
      hi := initHi
      lo := initLo }
  pcSet := false

/-- `add_byte(value, address)` (20_memory.md R81): the last one to an address wins; a call outside the ranges is refused
(60_exceptions.md R232). -/
def Setup.addByte (u : Setup) (value address : Int) : Except LoadRefusal Setup :=
  if 0 ≤ value ∧ value ≤ 255 then
    match addressOf address with
    | .error r => .error r
    | .ok a => .ok { u with machine := { u.machine with mem := u.machine.mem.write a.toNat (BitVec.ofInt 8 value) } }
  else .error (.badByte value)

/-- `add_label(name, address)` (R82): a second binding of a name is refused. -/
def Setup.addLabel (u : Setup) (name : String) (address : Int) : Except LoadRefusal Setup :=
  match lookupName u.machine.labels name with
  | some _ => .error (.duplicateLabel name)
  | none =>
    match addressOf address with
    | .error r => .error r
    | .ok a => .ok { u with machine := { u.machine with labels := u.machine.labels ++ [(name, a)] } }

/-- Step 3 of R257: the program store is filled with terms at PROG_BASE, encoded where BINARY_LAYER is true (10_state.md R40;
30_encoding.md R110, R112). -/
def Setup.loadTerms (u : Setup) (base : Word) (binaryLayer : Bool) (program : List Instr) : Except LoadRefusal Setup :=
  if base.toNat % 4 = 0 then
    if binaryLayer then
      match encodeProgram base program with
      | .error r => .error r
      | .ok words => .ok { u with machine := { u.machine with progBase := base, prog := .words words } }
    else .ok { u with machine := { u.machine with progBase := base, prog := .terms program } }
  else .error (.badProgBase base)

/-- Step 3 of R257 from assembler text: every name and label is resolved first, with the labels bound so far. -/
def Setup.loadText (u : Setup) (base : Word) (binaryLayer : Bool) (text : List String) : Except LoadRefusal Setup :=
  match assembleText u.machine.labels text with
  | .error r => .error r
  | .ok program => u.loadTerms base binaryLayer program

/-- Step 4 of R257: the host sets an initial register through the port, pc among them (10_state.md R45). -/
def Setup.set (u : Setup) (r : PortReg) (v : Int) : Setup where
  machine := u.machine.portSet r v
  pcSet := u.pcSet || decide (r = .pc)

/-- What the run's registers and memory hold before the start: pc is what the host set, otherwise RESET_PC's default PROG_BASE
(00_scope.md R6, 10_state.md R55; log entry 13). -/
def Setup.state (u : Setup) : State := { u.machine with pc := if u.pcSet then u.machine.pc else u.machine.progBase }

/-- The host's `get(r, mode)` before the run (10_state.md R32, R45). The run has not started, so the port is open. -/
def Setup.get (u : Setup) (r : PortReg) (mode : ReadMode) : Int := u.state.portGet r mode

/-- The host's `read(a, w)` before the run (R46, 20_memory.md R74); none where the access is misaligned. -/
def Setup.read (u : Setup) (a : Word) (w : Width) : Option Nat := memRead u.machine.endian u.machine.mem a w

/-- The host's `write(a, v, w)` before the run (R46, 20_memory.md R76); none where the access is misaligned. -/
def Setup.write (u : Setup) (a : Word) (v : Int) (w : Width) : Option Setup :=
  (memWrite u.machine.endian u.machine.mem a w v).map fun m => { u with machine := { u.machine with mem := m } }

/-- Step 5 of R257: status becomes Running and steps begin, at the pc of the state before the start (R55, R256). -/
def Setup.start (u : Setup) : State := { u.state with status := .running }

/-- The five steps of R257 in their order. -/
def boot (endian : Endian) (init : MemInit) (initRegs : Vector Word 32) (initHi initLo : Word)
    (bytes : List (Int × Int)) (labels : List (String × Int)) (base : Word) (binaryLayer : Bool) (text : List String)
    (sets : List (PortReg × Int)) : Except LoadRefusal State := do
  let constructed := Setup.construct endian init initRegs initHi initLo
  let filled ← bytes.foldlM (fun u b => u.addByte b.1 b.2) constructed
  let named ← labels.foldlM (fun u l => u.addLabel l.1 l.2) filled
  let loaded ← named.loadText base binaryLayer text
  return (sets.foldl (fun u x => u.set x.1 x.2) loaded).start

end Sys2Proof.Machine
end

