-- ==== Sys2Proof/Safety.lean ====
section
/-! DEFINITION. The terms in which claims speak of runs and states: what an instruction may leave unchanged (frames), what
taking a fault looks like (60_exceptions.md R226, R233, R235), the invariant of the machine, reachable states and safe runs
(70_reset_and_hazards.md R259, R265). -/

namespace Sys2Proof.Machine

/-- What no instruction may change: ENDIAN, LABELS, PROG_BASE, PROG and MEM_INIT (10_state.md R39, R40, R42; 20_memory.md
R91). -/
structure SameRun (s t : State) : Prop where
  endian : t.endian = s.endian
  labels : t.labels = s.labels
  progBase : t.progBase = s.progBase
  prog : t.prog = s.prog
  memInit : t.mem.init = s.mem.init

/-- Every byte of memory reads as before. -/
def SameMemory (s t : State) : Prop := ∀ a, t.mem.read a = s.mem.read a

/-- Every general register reads as before. -/
def SameRegs (s t : State) : Prop := ∀ r, t.getReg r = s.getReg r

/-- The frame of an instruction that writes one general register: every other one, hi, lo, pc, status, every byte of memory
and what no instruction changes are as before; register 0 reads 0 even as the destination (10_state.md R33). -/
structure OnlyRegister (s t : State) (dest : RegNum) : Prop where
  others : ∀ r, r ≠ dest → t.getReg r = s.getReg r
  zero : t.getReg 0 = 0
  pc : t.pc = s.pc
  hi : t.hi = s.hi
  lo : t.lo = s.lo
  memory : SameMemory s t
  status : t.status = s.status
  run : SameRun s t

/-- The frame of an instruction that writes no general register and no memory: what is left is pc, hi, lo and status. -/
structure SameData (s t : State) : Prop where
  regs : SameRegs s t
  memory : SameMemory s t
  run : SameRun s t

/-- A transfer without a link was taken: pc is the target and nothing else changed (44_control_flow.md R195). -/
structure Jumped (s t : State) (target : Word) : Prop where
  pc : t.pc = target
  hi : t.hi = s.hi
  lo : t.lo = s.lo
  status : t.status = s.status
  data : SameData s t

/-- A transfer with a link was taken: `$ra` (register 31) holds the pc before the transfer, pc is the target, and nothing else
changed (44_control_flow.md R196, R198, R201). -/
structure Linked (s t : State) (target : Word) : Prop where
  pc : t.pc = target
  link : t.getReg 31 = s.pc
  others : ∀ r, r ≠ 31 → t.getReg r = s.getReg r
  hi : t.hi = s.hi
  lo : t.lo = s.lo
  memory : SameMemory s t
  status : t.status = s.status
  run : SameRun s t

/-- The frame of a store: every byte outside the `n` bytes from `a` up reads as before, and all else but those bytes is as
before (20_memory.md R71). -/
structure OnlyBytes (s t : State) (a n : Nat) : Prop where
  others : ∀ b, b < a ∨ a + n ≤ b → t.mem.read b = s.mem.read b
  regs : SameRegs s t
  pc : t.pc = s.pc
  hi : t.hi = s.hi
  lo : t.lo = s.lo
  status : t.status = s.status
  run : SameRun s t

/-- The address Execute's instruction was fetched from: its pc is that address plus 4 (10_state.md R52). The instruction raised
the fault and nothing else changed: the status holds the record and pc is the faulting address (60_exceptions.md R226, R233,
R235). -/
structure Raised (s t : State) (kind : FaultKind) (addr : Word) : Prop where
  status : t.status = .faulted ⟨kind, s.pc - 4, addr⟩
  pc : t.pc = s.pc - 4
  hi : t.hi = s.hi
  lo : t.lo = s.lo
  data : SameData s t

/-- The control-flow instructions, the only ones that write pc beside the advance (10_state.md R36). -/
def controlFlow : Instr → Bool
  | .j _ | .jal _ | .bgez _ _ | .bgezal _ _ | .blez _ _ => true
  | .add _ _ _ | .addu _ _ _ | .addi _ _ _ | .sub _ _ _ | .mult _ _ | .sll _ _ _ | .srl _ _ _ | .srav _ _ _
  | .slt _ _ _ | .lb _ _ _ | .lbu _ _ _ | .sh _ _ _ | .sw _ _ _ | .lui _ _ | .clz _ _ | .clo _ _ => false

/-- The target of a control-flow instruction (44_control_flow.md R195 to R199). -/
def targetAddress : Instr → Option Word
  | .j target => some target
  | .jal target => some target
  | .bgez _ target => some target
  | .bgezal _ target => some target
  | .blez _ target => some target
  | .add _ _ _ | .addu _ _ _ | .addi _ _ _ | .sub _ _ _ | .mult _ _ | .sll _ _ _ | .srl _ _ _ | .srav _ _ _
  | .slt _ _ _ | .lb _ _ _ | .lbu _ _ _ | .sh _ _ _ | .sw _ _ _ | .lui _ _ | .clz _ _ | .clo _ _ => none

/-- The store an instruction performs: width, source register, offset and base (20_memory.md R83). -/
def storeOf : Instr → Option (Width × RegNum × Int × RegNum)
  | .sh rt offset base => some (.half, rt, offset, base)
  | .sw rt offset base => some (.word, rt, offset, base)
  | .add _ _ _ | .addu _ _ _ | .addi _ _ _ | .sub _ _ _ | .mult _ _ | .sll _ _ _ | .srl _ _ _ | .srav _ _ _
  | .slt _ _ _ | .lb _ _ _ | .lbu _ _ _ | .lui _ _ | .j _ | .jal _ | .bgez _ _ | .bgezal _ _ | .blez _ _ | .clz _ _
  | .clo _ _ => none

/-- The exact sum or difference of a trapping instruction (40_arithmetic.md R140, R142, R143). -/
def exactResult (s : State) : Instr → Option Int
  | .add _ rs rt => some (s.getSigned rs + s.getSigned rt)
  | .addi _ rs imm => some (s.getSigned rs + imm)
  | .sub _ rs rt => some (s.getSigned rs - s.getSigned rt)
  | .addu _ _ _ | .mult _ _ | .sll _ _ _ | .srl _ _ _ | .srav _ _ _ | .slt _ _ _ | .lb _ _ _ | .lbu _ _ _ | .sh _ _ _
  | .sw _ _ _ | .lui _ _ | .j _ | .jal _ | .bgez _ _ | .bgezal _ _ | .blez _ _ | .clz _ _ | .clo _ _ => none

/-- The `recorded addr` of a kind (60_exceptions.md R225); a MemoryAlignmentError records a misaligned address. -/
def FaultRecord.addrOk (rec : FaultRecord) : Prop :=
  match rec.kind with
  | .arithmeticOverflow => rec.addr = 0
  | .invalidImmediate => rec.addr = 0
  | .memoryAlignmentError => rec.addr.toNat % 4 ≠ 0
  | .instructionFetchError => rec.addr = rec.pc
  | .reservedInstruction => rec.addr = rec.pc

/-- What each status says of the state: Halted is at PROG_END (70_reset_and_hazards.md R265), a Faulted run's pc is the address
in its record (60_exceptions.md R233). -/
def State.statusOk (s : State) : Prop :=
  match s.status with
  | .running => True
  | .halted => s.pc = s.progEnd
  | .faulted rec => rec.pc = s.pc ∧ rec.addrOk

/-- The invariant every step keeps. -/
structure State.Inv (s : State) : Prop where
  /-- memory is in its canonical form -/
  memory : s.mem.wf
  /-- the storage of the hard-wired register holds 0 (10_state.md R33) -/
  zero : s.gpr[0] = 0
  /-- PROG_BASE is 4-aligned (00_scope.md R6) -/
  aligned : s.progBase.toNat % 4 = 0
  /-- the status agrees with the pc and the record -/
  status : s.statusOk

/-- The launch premises of 70_reset_and_hazards.md R259 that hold of every launch: the first step finds the block Running, in
a state built without refusal. -/
def State.Launched (s : State) : Prop := s.Inv ∧ s.status = .running

/-- The states a run passes through. -/
inductive Reaches (s : State) : State → Prop where
  | start : Reaches s s
  | next {t u : State} : Reaches s t → step t = .next u → Reaches s u

/-- A safe run: it has not ended in a fault (R265). -/
def State.Safe (s : State) : Prop := ∀ rec, s.status ≠ .faulted rec

/-- The run has ended (R265): Halted or Faulted. -/
def State.Ended (s : State) : Prop := s.status ≠ .running

end Sys2Proof.Machine
end

