-- ==== Sys2Proof/Certificates/Slice0/Obligations.lean ====
section
/-! DEFINITION. The statements for the provers. Each docstring names the rule of spec/ it formalises. A hypothesis `s.mem.wf` or
`s.Inv` is the invariant that StepKeepsTheInvariant, ResetMeetsTheInvariant and BootMeetsTheInvariant are about. -/

open Sys2Proof Sys2Proof.Machine

/-! ## Reset and boot -/

/-- 10_state.md R55, R256 (sections 6 and 1): what the spec itself gives the state after reset. Status is Running, x[0] is 0, pc
is PROG_BASE (the default of RESET_PC), every byte reads MEM_INIT, BINARY_LAYER is false (00_scope.md R6). -/
def Obligations.ResetGivesTheSpecValues : Prop :=
  State.reset.status = .running ∧ State.reset.getReg 0 = 0 ∧ State.reset.pc = State.reset.progBase ∧
    (∀ a, State.reset.mem.read a = State.reset.mem.init.byteAt a) ∧ State.reset.prog.binaryLayer = false

/-- 10_state.md section 6 (R55), 70_reset_and_hazards.md section 2 (R257) and 20_memory.md section 3: a boot that is not refused gives
every piece of state its launch value. Status is Running; ENDIAN, MEM_INIT, PROG_BASE and BINARY_LAYER are as given. x[0] reads 0.
Every other port register holds what the host set last and, where the host did not set it, its launch value: INIT_REGS, and PROG_BASE
for pc. Every byte, over a canonical MEM_INIT, is the last one added at its address and, where none was added, MEM_INIT. The labels
are bound, and the program store holds the program the text stands for, encoded in the binary layer. -/
def Obligations.BootGivesEveryPieceItsLaunchValue : Prop :=
  ∀ (endian : Endian) (init : MemInit) (regs : Vector Word 32) (hi lo : Word) (bytes : List (Int × Int))
    (labels : List (String × Int)) (base : Word) (layer : Bool) (text : List String) (sets : List (PortReg × Int))
    (s : State),
    boot endian init regs hi lo bytes labels base layer text sets = .ok s →
    s.status = .running ∧ s.endian = endian ∧ s.mem.init = init ∧ s.progBase = base ∧ s.prog.binaryLayer = layer ∧
    s.getReg 0 = 0 ∧
    (∀ before r v after, sets = before ++ (r, v) :: after → (∀ x ∈ after, x.1 ≠ r) → r ≠ .gpr 0 →
      s.portPattern r = uint32 v) ∧
    (∀ r : RegNum, r ≠ 0 → (∀ x ∈ sets, x.1 ≠ .gpr r) → s.getReg r = regs[r.val]) ∧
    ((∀ x ∈ sets, x.1 ≠ .pc) → s.pc = base) ∧
    ((∀ x ∈ sets, x.1 ≠ .hi) → s.hi = hi) ∧
    ((∀ x ∈ sets, x.1 ≠ .lo) → s.lo = lo) ∧
    (bytes = [] → ∀ a, s.mem.read a = init.byteAt a) ∧
    ((⟨init, []⟩ : Memory).wf →
      (∀ before v a after, bytes = before ++ (v, a) :: after → (∀ x ∈ after, x.2 ≠ a) →
        s.mem.read a.toNat = BitVec.ofInt 8 v) ∧
      ∀ a : Nat, (∀ x ∈ bytes, x.2 ≠ (a : Int)) → s.mem.read a = init.byteAt a) ∧
    s.labels = labels.map (fun l => (l.1, uint32 l.2)) ∧
    ∃ program, assembleText s.labels text = .ok program ∧
      (layer = false → s.prog = .terms program) ∧
      (layer = true → ∃ ws, encodeProgram base program = .ok ws ∧ s.prog = .words ws)

/-- The invariant holds of the reset state. The storage clause (log entry 5) and the values at reset (log entries 1 to 4) are the
model's choices. -/
def Obligations.ResetMeetsTheInvariant : Prop := State.reset.Inv

/-- 70_reset_and_hazards.md section 2 (R257, R259): every boot that is not refused, over a canonical MEM_INIT, gives a launched
state: the invariant holds and the block is Running. The invariant's clause that the storage of register 0 holds 0 is the model's
choice (log entry 5). -/
def Obligations.BootMeetsTheInvariant : Prop :=
  ∀ (endian : Endian) (init : MemInit) (regs : Vector Word 32) (hi lo : Word) (bytes : List (Int × Int))
    (labels : List (String × Int)) (base : Word) (layer : Bool) (text : List String) (sets : List (PortReg × Int))
    (s : State),
    (⟨init, []⟩ : Memory).wf →
    boot endian init regs hi lo bytes labels base layer text sets = .ok s → s.Launched

/-- 20_memory.md R81: add_byte writes one byte at the address; the last one to an address wins; no other byte changes; a value
outside 0..255 or an address outside 0..2^32-1 is refused. That a bad value at a bad address is refused for the value is the model's
choice (log entry 11); the spec gives no order. -/
def Obligations.TheLastAddByteWins : Prop :=
  ∀ (u : Setup) (v w a : Int), u.machine.mem.wf →
    ((v < 0 ∨ 255 < v) → u.addByte v a = .error (.badByte v)) ∧
    (0 ≤ v → v ≤ 255 → (a < 0 ∨ 2 ^ 32 ≤ a) → u.addByte v a = .error (.badAddress a)) ∧
    (0 ≤ v → v ≤ 255 → 0 ≤ w → w ≤ 255 → 0 ≤ a → a < 2 ^ 32 →
      ∃ u1 u2, u.addByte v a = .ok u1 ∧ u1.addByte w a = .ok u2 ∧
        u1.machine.mem.read a.toNat = BitVec.ofInt 8 v ∧ u2.machine.mem.read a.toNat = BitVec.ofInt 8 w ∧
        ∀ b, b ≠ a.toNat → u2.machine.mem.read b = u.machine.mem.read b)

/-- 20_memory.md R82: add_label binds a name to an address that get_label then returns, other names keep theirs; a second binding
of a name is refused, and so is an address outside 0..2^32-1. That a bound name with a bad address is refused for the name is the
model's choice (log entry 11); the spec gives no order. -/
def Obligations.LabelsAreBoundOnce : Prop :=
  ∀ (u : Setup) (name : String) (a : Int),
    (∀ b, getLabel u.machine.labels name = .ok b → u.addLabel name a = .error (.duplicateLabel name)) ∧
    (getLabel u.machine.labels name = .error (.unresolvedLabel name) → (a < 0 ∨ 2 ^ 32 ≤ a) →
      u.addLabel name a = .error (.badAddress a)) ∧
    (getLabel u.machine.labels name = .error (.unresolvedLabel name) → 0 ≤ a → a < 2 ^ 32 →
      ∃ u', u.addLabel name a = .ok u' ∧ getLabel u'.machine.labels name = .ok (uint32 a) ∧
        ∀ other, other ≠ name → getLabel u'.machine.labels other = getLabel u.machine.labels other)

/-! ## The binary layer -/

/-- 30_encoding.md R105 to R109 (section 2): words written out from the encodings of the opcode map (the words of the test vectors'
programs P1 to P3) decode to their terms at their addresses; G5, G7 and G8 are reserved. -/
def Obligations.SampleWordsDecode : Prop :=
  decode 0x00400008 0x01284820 = .ok (.add 9 9 8) ∧ decode 0x00400004 0x00084E02 = .ok (.srl 9 8 24) ∧
    decode 0x0040001C 0x0109702A = .ok (.slt 14 8 9) ∧ decode 0x0040000C 0xAD280004 = .ok (.sw 8 4 9) ∧
    decode 0x00400014 0x0541FFFC = .ok (.bgez 10 0x00400008) ∧ decode 0x00400018 0x0C100009 = .ok (.jal 0x00400024) ∧
    decode 0x00400010 0x712C6020 = .ok (.clz 12 9) ∧ decode 0x00400008 0x2108ABCD = .ok (.addi 8 8 (-21555)) ∧
    decode 0 0 = .ok (.sll 0 0 0) ∧ decode 0 0x00000001 = .error .noRow ∧ decode 0 0x00284E02 = .error .noRow ∧
    decode 0 0x712B6020 = .error .countRtNotRd

/-- 30_encoding.md R110: for every encodable term and its word, decoding the word at its address gives the term back, with every
operand at every value the encoding admits; a term has a word exactly when it meets the conditions of R110. -/
def Obligations.DecodeGivesTheEncodedTermBack : Prop :=
  ∀ (A : Word) (i : Instr),
    (i.encodableAt A = true ↔ ∃ w, encode A i = some w) ∧ ∀ w, encode A i = some w → decode A w = .ok i

/-- 30_encoding.md section 2 (R107, R110): a word that decodes is the word its term encodes to, so no two words decode to one term
at one address. -/
def Obligations.EncodeGivesTheDecodedWordBack : Prop :=
  ∀ (A w : Word) (i : Instr), decode A w = .ok i → encode A i = some w

/-- 30_encoding.md section 2 (R111): no two rows of the opcode map match the same word, and the row a decoded word matches is the
row of its term. -/
def Obligations.NoTwoRowsMatchOneWord : Prop :=
  ∀ w : Word,
    (∀ m k : Mnemonic, m.matchesWord w = true → k.matchesWord w = true → m = k) ∧
      ∀ (A : Word) (i : Instr), decode A w = .ok i → i.mnemonic.matchesWord w = true

/-- 30_encoding.md section 2 (R109, R111): a word is rejected exactly when it matches no row, or is a clz or clo word whose rt and
rd fields differ. -/
def Obligations.ReservedWordsAreThoseWithoutARow : Prop :=
  ∀ (A w : Word),
    ((∃ r, decode A w = .error r) ↔
      (∀ m : Mnemonic, m.matchesWord w = false) ∨
        ((Mnemonic.clz.matchesWord w = true ∨ Mnemonic.clo.matchesWord w = true) ∧ rtField w ≠ rdField w))

/-- 30_encoding.md section 2 (R107): a decoded immediate is always inside its legal range, so InvalidImmediate cannot arise from a
decoded word, whatever the state. -/
def Obligations.DecodedTermsNeverRaiseInvalidImmediate : Prop :=
  ∀ (A w : Word) (i : Instr) (s t : State), decode A w = .ok i → s.status = .running → exec i s = .next t →
    ∀ rec, t.status = .faulted rec → rec.kind ≠ .invalidImmediate

/-- 95_test_vectors.md section 3 and 30_encoding.md sections 1 and 2 (R4, R110, R112): a program stored as words steps exactly as the
same program stored as terms, at every pc and in every state. -/
def Obligations.WordsRunLikeTheirTerms : Prop :=
  ∀ (s : State) (program : List Instr) (ws : List Word), encodeProgram s.progBase program = .ok ws →
    step { s with prog := .words ws } =
      match step { s with prog := .terms program } with
      | .next t => .next { t with prog := .words ws }
      | .fault r => .fault r
      | .refused r => .refused r

/-! ## Arithmetic utilities and ports -/

/-- 00_scope.md R10 and R11: overflow_detect is the signed reading of the low 32 bits, lies in the signed range, is idempotent, is
the identity on that range and is not self-inverse outside it. -/
def Obligations.OverflowDetectNormalises : Prop :=
  (∀ v : Int, overflowDetect v = ((v + 2 ^ 31) % 2 ^ 32) - 2 ^ 31 ∧ overflowDetect v = sint32 (uint32 v) ∧
    -2 ^ 31 ≤ overflowDetect v ∧ overflowDetect v ≤ 2 ^ 31 - 1 ∧ overflowDetect (overflowDetect v) = overflowDetect v ∧
    (-2 ^ 31 ≤ v → v ≤ 2 ^ 31 - 1 → overflowDetect v = v)) ∧
  overflowDetect (2 ^ 31) = -2 ^ 31 ∧ overflowDetect (-2 ^ 31) = -2 ^ 31

/-- 00_scope.md R12: the scan from bit 31 counts `32` for 0 and `31 - floor(log2(p))` otherwise. -/
def Obligations.ClzScanCountsLeadingZeros : Prop :=
  ∀ p : Word, clz32 p = if p = 0 then 32 else 31 - Nat.log2 p.toNat

/-- 00_scope.md section 5 (R13): clo32 counts the leading one bits: so many bits from bit 31 down are 1, and the next one, if there
is one, is 0. -/
def Obligations.CloCountsLeadingOnes : Prop :=
  ∀ p : Word, clo32 p ≤ 32 ∧ (∀ k, k < clo32 p → p.getLsbD (31 - k) = true) ∧
    (clo32 p < 32 → p.getLsbD (31 - clo32 p) = false)

/-- 10_state.md R34 (and sections 1 and 4, R33, R45): `get` after `set` gives the low 32 bits, unsigned or normalised to the signed
range; a set of register 0 is discarded and it reads 0; every other port register, memory, status and the launch parameters stay. The
same holds of the host's ports before the run, where the state is the one being built. -/
def Obligations.PortsRoundTrip : Prop :=
  (∀ (s : State) (r : PortReg) (v : Int),
    (r ≠ .gpr 0 → (s.portSet r v).portGet r .unsigned = v % 2 ^ 32 ∧ (s.portSet r v).portGet r .signed = overflowDetect v) ∧
    s.portSet (.gpr 0) v = s ∧ (∀ mode, s.portGet (.gpr 0) mode = 0) ∧
    (∀ q mode, q ≠ r → (s.portSet r v).portGet q mode = s.portGet q mode) ∧
    (s.portSet r v).status = s.status ∧ (s.portSet r v).mem = s.mem ∧ SameRun s (s.portSet r v)) ∧
  ∀ (u : Setup) (r : PortReg) (v : Int),
    (r ≠ .gpr 0 → (u.set r v).get r .unsigned = v % 2 ^ 32 ∧ (u.set r v).get r .signed = overflowDetect v) ∧
    u.set (.gpr 0) v = u ∧ (∀ mode, u.get (.gpr 0) mode = 0) ∧
    (∀ q mode, q ≠ r → (u.set r v).get q mode = u.get q mode) ∧
    (u.set r v).machine.mem = u.machine.mem ∧ SameRun u.machine (u.set r v).machine

/-! ## Memory -/

/-- 20_memory.md R77: under either byte order an aligned word written reads back whole, and a halfword or word write succeeds exactly
on aligned addresses. -/
def Obligations.WordsReadBackAsWritten : Prop :=
  ∀ (e : Endian) (m : Memory) (a : Word), m.wf →
    (∀ v : Word, a.toNat % 4 = 0 →
      ∃ m', memWrite e m a .word (v.toNat : Int) = some m' ∧ memRead e m' a .word = some v.toNat) ∧
    (∀ v : Int, (memWrite e m a .half v).isSome = decide (a.toNat % 2 = 0) ∧
      (memWrite e m a .word v).isSome = decide (a.toNat % 4 = 0))

/-- 20_memory.md R76 (and R71, R75): an aligned write stores byte `p[8i+7 : 8i]` of the value at offset i in little-endian and at
offset n-1-i in big-endian, changes no other byte, and keeps the canonical form; a misaligned one writes nothing. -/
def Obligations.MemWriteStoresTheBytesInOrder : Prop :=
  ∀ (e : Endian) (m : Memory) (a : Word) (w : Width) (v : Int), m.wf →
    (a.toNat % w.bytes ≠ 0 → memWrite e m a w v = none) ∧
    (a.toNat % w.bytes = 0 → ∃ m', memWrite e m a w v = some m' ∧ m'.wf ∧ m'.init = m.init ∧
      (∀ i, i < w.bytes →
        (m'.read (a.toNat + (match e with | .little => i | .big => w.bytes - 1 - i))).toNat = (v / 256 ^ i % 256).toNat) ∧
      ∀ b, b < a.toNat ∨ a.toNat + w.bytes ≤ b → m'.read b = m.read b)

/-- 20_memory.md R74: an aligned read is the sum of its bytes weighted in byte order; a misaligned one raises. -/
def Obligations.MemReadSumsTheBytesInOrder : Prop :=
  ∀ (e : Endian) (m : Memory) (a : Word) (w : Width),
    (a.toNat % w.bytes ≠ 0 → memRead e m a w = none) ∧
    (a.toNat % w.bytes = 0 → memRead e m a w =
      some (∑ i ∈ Finset.range w.bytes,
        (m.read (a.toNat + i)).toNat * 2 ^ (8 * (match e with | .little => i | .big => w.bytes - 1 - i))))

/-- 20_memory.md section 2 (R78): a byte loaded from inside a word that was just stored is that byte of the word in the configured
order, through the instructions themselves. -/
def Obligations.ByteLoadsSeeTheWordStored : Prop :=
  ∀ (s : State) (rt base rd base' : RegNum) (offset offset' : Int) (k : Nat), s.mem.wf →
    (Instr.sw rt offset base).wf = true → (Instr.lbu rd offset' base').wf = true → rd ≠ 0 →
    (effectiveAddress s base offset).toNat % 4 = 0 → k < 4 →
    (effectiveAddress s base' offset').toNat = (effectiveAddress s base offset).toNat + k →
    ∃ t u, exec (.sw rt offset base) s = .next t ∧ exec (.lbu rd offset' base') t = .next u ∧
      (u.getReg rd).toNat = (s.getReg rt).toNat / 256 ^ (match s.endian with | .little => k | .big => 3 - k) % 256

/-- 43_memory_access.md section R175: the effective address is the unsigned base plus the offset, modulo 2^32. -/
def Obligations.EffectiveAddressWraps : Prop :=
  ∀ (s : State) (base : RegNum) (offset : Int),
    ((effectiveAddress s base offset).toNat : Int) = ((s.getReg base).toNat + offset) % 2 ^ 32

/-! ## The instructions -/

/-- 40_arithmetic.md R140. -/
def Obligations.AddWritesTheExactSumOrRaises : Prop :=
  ∀ (s : State) (rd rs rt : RegNum),
    (-2 ^ 31 ≤ sint32 (s.getReg rs) + sint32 (s.getReg rt) → sint32 (s.getReg rs) + sint32 (s.getReg rt) ≤ 2 ^ 31 - 1 →
      ∃ t, exec (.add rd rs rt) s = .next t ∧ OnlyRegister s t rd ∧
        (rd ≠ 0 → sint32 (t.getReg rd) = sint32 (s.getReg rs) + sint32 (s.getReg rt))) ∧
    (sint32 (s.getReg rs) + sint32 (s.getReg rt) < -2 ^ 31 ∨ 2 ^ 31 - 1 < sint32 (s.getReg rs) + sint32 (s.getReg rt) →
      ∃ t, exec (.add rd rs rt) s = .next t ∧ Raised s t .arithmeticOverflow 0)

/-- 40_arithmetic.md R141. -/
def Obligations.AdduWrapsAndNeverFaults : Prop :=
  ∀ (s : State) (rd rs rt : RegNum),
    ∃ t, exec (.addu rd rs rt) s = .next t ∧ OnlyRegister s t rd ∧
      (rd ≠ 0 → (t.getReg rd).toNat = ((s.getReg rs).toNat + (s.getReg rt).toNat) % 2 ^ 32)

/-- 40_arithmetic.md R142: the immediate is checked first, then the sum. -/
def Obligations.AddiChecksTheImmediateThenTheSum : Prop :=
  ∀ (s : State) (rt rs : RegNum) (imm : Int),
    (imm < -32768 ∨ 32767 < imm → ∃ t, exec (.addi rt rs imm) s = .next t ∧ Raised s t .invalidImmediate 0) ∧
    (-32768 ≤ imm → imm ≤ 32767 →
      (-2 ^ 31 ≤ sint32 (s.getReg rs) + imm → sint32 (s.getReg rs) + imm ≤ 2 ^ 31 - 1 →
        ∃ t, exec (.addi rt rs imm) s = .next t ∧ OnlyRegister s t rt ∧
          (rt ≠ 0 → sint32 (t.getReg rt) = sint32 (s.getReg rs) + imm)) ∧
      (sint32 (s.getReg rs) + imm < -2 ^ 31 ∨ 2 ^ 31 - 1 < sint32 (s.getReg rs) + imm →
        ∃ t, exec (.addi rt rs imm) s = .next t ∧ Raised s t .arithmeticOverflow 0))

/-- 40_arithmetic.md R143. -/
def Obligations.SubWritesTheExactDifferenceOrRaises : Prop :=
  ∀ (s : State) (rd rs rt : RegNum),
    (-2 ^ 31 ≤ sint32 (s.getReg rs) - sint32 (s.getReg rt) → sint32 (s.getReg rs) - sint32 (s.getReg rt) ≤ 2 ^ 31 - 1 →
      ∃ t, exec (.sub rd rs rt) s = .next t ∧ OnlyRegister s t rd ∧
        (rd ≠ 0 → sint32 (t.getReg rd) = sint32 (s.getReg rs) - sint32 (s.getReg rt))) ∧
    (sint32 (s.getReg rs) - sint32 (s.getReg rt) < -2 ^ 31 ∨ 2 ^ 31 - 1 < sint32 (s.getReg rs) - sint32 (s.getReg rt) →
      ∃ t, exec (.sub rd rs rt) s = .next t ∧ Raised s t .arithmeticOverflow 0)

/-- 40_arithmetic.md R144: hi and lo hold the high and low half of the exact signed product; no general register, no memory and no
pc is written. -/
def Obligations.MultWritesTheSignedProduct : Prop :=
  ∀ (s : State) (rs rt : RegNum),
    ∃ t, exec (.mult rs rt) s = .next t ∧ SameData s t ∧ t.pc = s.pc ∧ t.status = s.status ∧
      ((t.lo.toNat : Int) = sint32 (s.getReg rs) * sint32 (s.getReg rt) % 2 ^ 64 % 2 ^ 32) ∧
      ((t.hi.toNat : Int) = sint32 (s.getReg rs) * sint32 (s.getReg rt) % 2 ^ 64 / 2 ^ 32) ∧
      sint32 t.hi * 2 ^ 32 + t.lo.toNat = sint32 (s.getReg rs) * sint32 (s.getReg rt)

/-- 41_shift.md R160. -/
def Obligations.SllMultipliesByAPowerOfTwo : Prop :=
  ∀ (s : State) (rd rt : RegNum) (sa : Int),
    (sa < 0 ∨ 31 < sa → ∃ t, exec (.sll rd rt sa) s = .next t ∧ Raised s t .invalidImmediate 0) ∧
    (0 ≤ sa → sa ≤ 31 → ∃ t, exec (.sll rd rt sa) s = .next t ∧ OnlyRegister s t rd ∧
      (rd ≠ 0 → (t.getReg rd).toNat = (s.getReg rt).toNat * 2 ^ sa.toNat % 2 ^ 32))

/-- 41_shift.md R161. -/
def Obligations.SrlDividesTheUnsignedValue : Prop :=
  ∀ (s : State) (rd rt : RegNum) (sa : Int),
    (sa < 0 ∨ 31 < sa → ∃ t, exec (.srl rd rt sa) s = .next t ∧ Raised s t .invalidImmediate 0) ∧
    (0 ≤ sa → sa ≤ 31 → ∃ t, exec (.srl rd rt sa) s = .next t ∧ OnlyRegister s t rd ∧
      (rd ≠ 0 → (t.getReg rd).toNat = (s.getReg rt).toNat / 2 ^ sa.toNat))

/-- 41_shift.md R162: the amount is the register's low 5 bits, the result is the signed value divided by a power of two, rounding
down. -/
def Obligations.SravDividesTheSignedValue : Prop :=
  ∀ (s : State) (rd rt rs : RegNum),
    ∃ t, exec (.srav rd rt rs) s = .next t ∧ OnlyRegister s t rd ∧
      (rd ≠ 0 → sint32 (t.getReg rd) = sint32 (s.getReg rt) / 2 ^ ((s.getReg rs).toNat % 32))

/-- 42_compare.md R170. -/
def Obligations.SltComparesSigned : Prop :=
  ∀ (s : State) (rd rs rt : RegNum),
    ∃ t, exec (.slt rd rs rt) s = .next t ∧ OnlyRegister s t rd ∧
      (rd ≠ 0 → (sint32 (s.getReg rs) < sint32 (s.getReg rt) → t.getReg rd = 1) ∧
        (sint32 (s.getReg rt) ≤ sint32 (s.getReg rs) → t.getReg rd = 0))

/-- 43_memory_access.md R176. -/
def Obligations.LbLoadsTheSignedByte : Prop :=
  ∀ (s : State) (rt base : RegNum) (offset : Int),
    (offset < -32768 ∨ 32767 < offset → ∃ t, exec (.lb rt offset base) s = .next t ∧ Raised s t .invalidImmediate 0) ∧
    (-32768 ≤ offset → offset ≤ 32767 → ∃ t, exec (.lb rt offset base) s = .next t ∧ OnlyRegister s t rt ∧
      (rt ≠ 0 → sint32 (t.getReg rt) = (s.mem.read (effectiveAddress s base offset).toNat).toInt))

/-- 43_memory_access.md R177. -/
def Obligations.LbuLoadsTheUnsignedByte : Prop :=
  ∀ (s : State) (rt base : RegNum) (offset : Int),
    (offset < -32768 ∨ 32767 < offset → ∃ t, exec (.lbu rt offset base) s = .next t ∧ Raised s t .invalidImmediate 0) ∧
    (-32768 ≤ offset → offset ≤ 32767 → ∃ t, exec (.lbu rt offset base) s = .next t ∧ OnlyRegister s t rt ∧
      (rt ≠ 0 → (t.getReg rt).toNat = (s.mem.read (effectiveAddress s base offset).toNat).toNat))

/-- 43_memory_access.md R178: the offset is checked first, then the alignment; the low halfword of the source register is stored at
the effective address in the configured order, and every other byte stays. -/
def Obligations.ShStoresTheLowHalfword : Prop :=
  ∀ (s : State) (rt base : RegNum) (offset : Int), s.mem.wf →
    (offset < -32768 ∨ 32767 < offset → ∃ t, exec (.sh rt offset base) s = .next t ∧ Raised s t .invalidImmediate 0) ∧
    (-32768 ≤ offset → offset ≤ 32767 → (effectiveAddress s base offset).toNat % 2 ≠ 0 →
      ∃ t, exec (.sh rt offset base) s = .next t ∧ Raised s t .memoryAlignmentError (effectiveAddress s base offset)) ∧
    (-32768 ≤ offset → offset ≤ 32767 → (effectiveAddress s base offset).toNat % 2 = 0 →
      ∃ t, exec (.sh rt offset base) s = .next t ∧ OnlyBytes s t (effectiveAddress s base offset).toNat 2 ∧
        (s.endian = .little →
          t.mem.read (effectiveAddress s base offset).toNat = (s.getReg rt).extractLsb' 0 8 ∧
          t.mem.read ((effectiveAddress s base offset).toNat + 1) = (s.getReg rt).extractLsb' 8 8) ∧
        (s.endian = .big →
          t.mem.read (effectiveAddress s base offset).toNat = (s.getReg rt).extractLsb' 8 8 ∧
          t.mem.read ((effectiveAddress s base offset).toNat + 1) = (s.getReg rt).extractLsb' 0 8))

/-- 43_memory_access.md R179: as sh, for the four bytes of a word. -/
def Obligations.SwStoresTheWord : Prop :=
  ∀ (s : State) (rt base : RegNum) (offset : Int), s.mem.wf →
    (offset < -32768 ∨ 32767 < offset → ∃ t, exec (.sw rt offset base) s = .next t ∧ Raised s t .invalidImmediate 0) ∧
    (-32768 ≤ offset → offset ≤ 32767 → (effectiveAddress s base offset).toNat % 4 ≠ 0 →
      ∃ t, exec (.sw rt offset base) s = .next t ∧ Raised s t .memoryAlignmentError (effectiveAddress s base offset)) ∧
    (-32768 ≤ offset → offset ≤ 32767 → (effectiveAddress s base offset).toNat % 4 = 0 →
      ∃ t, exec (.sw rt offset base) s = .next t ∧ OnlyBytes s t (effectiveAddress s base offset).toNat 4 ∧
        (s.endian = .little → ∀ k, k < 4 →
          t.mem.read ((effectiveAddress s base offset).toNat + k) = (s.getReg rt).extractLsb' (8 * k) 8) ∧
        (s.endian = .big → ∀ k, k < 4 →
          t.mem.read ((effectiveAddress s base offset).toNat + k) = (s.getReg rt).extractLsb' (8 * (3 - k)) 8))

/-- 43_memory_access.md R180. -/
def Obligations.LuiLoadsTheUpperHalf : Prop :=
  ∀ (s : State) (rt : RegNum) (imm : Int),
    (imm < 0 ∨ 65535 < imm → ∃ t, exec (.lui rt imm) s = .next t ∧ Raised s t .invalidImmediate 0) ∧
    (0 ≤ imm → imm ≤ 65535 → ∃ t, exec (.lui rt imm) s = .next t ∧ OnlyRegister s t rt ∧
      (rt ≠ 0 → ((t.getReg rt).toNat : Int) = imm * 2 ^ 16))

/-- 44_control_flow.md R195. -/
def Obligations.JumpSetsThePc : Prop :=
  ∀ (s : State) (target : Word), ∃ t, exec (.j target) s = .next t ∧ Jumped s t target

/-- 44_control_flow.md R196: the link is the pc before the jump. -/
def Obligations.JumpAndLinkSavesThePc : Prop :=
  ∀ (s : State) (target : Word), ∃ t, exec (.jal target) s = .next t ∧ Linked s t target

/-- 44_control_flow.md R197: taken, only pc changes; not taken, nothing does. -/
def Obligations.BgezBranchesOnNonNegative : Prop :=
  ∀ (s : State) (rs : RegNum) (target : Word),
    (0 ≤ sint32 (s.getReg rs) → ∃ t, exec (.bgez rs target) s = .next t ∧ Jumped s t target) ∧
    (sint32 (s.getReg rs) < 0 → exec (.bgez rs target) s = .next s)

/-- 44_control_flow.md R198: taken, pc and `$ra` change; not taken, neither does. -/
def Obligations.BgezalLinksOnlyWhenTaken : Prop :=
  ∀ (s : State) (rs : RegNum) (target : Word),
    (0 ≤ sint32 (s.getReg rs) → ∃ t, exec (.bgezal rs target) s = .next t ∧ Linked s t target) ∧
    (sint32 (s.getReg rs) < 0 → exec (.bgezal rs target) s = .next s)

/-- 44_control_flow.md R199. -/
def Obligations.BlezBranchesOnNonPositive : Prop :=
  ∀ (s : State) (rs : RegNum) (target : Word),
    (sint32 (s.getReg rs) ≤ 0 → ∃ t, exec (.blez rs target) s = .next t ∧ Jumped s t target) ∧
    (0 < sint32 (s.getReg rs) → exec (.blez rs target) s = .next s)

/-- 45_bit_counting.md R215 (with 00_scope.md R12). -/
def Obligations.ClzWritesTheZeroCount : Prop :=
  ∀ (s : State) (rd rs : RegNum),
    ∃ t, exec (.clz rd rs) s = .next t ∧ OnlyRegister s t rd ∧
      (rd ≠ 0 → (t.getReg rd).toNat = if s.getReg rs = 0 then 32 else 31 - Nat.log2 (s.getReg rs).toNat)

/-- 45_bit_counting.md R216 (with 00_scope.md R13): the count of the leading zeros of the complement. -/
def Obligations.CloWritesTheOneCount : Prop :=
  ∀ (s : State) (rd rs : RegNum),
    ∃ t, exec (.clo rd rs) s = .next t ∧ OnlyRegister s t rd ∧
      (rd ≠ 0 → (t.getReg rd).toNat =
        if s.getReg rs = 0xFFFFFFFF then 32 else 31 - Nat.log2 (s.getReg rs ^^^ 0xFFFFFFFF).toNat)

/-! ## Rules of the whole machine -/

/-- 10_state.md section 4 (R48, R51) and 60_exceptions.md section 1: every instruction, in every state, either commits with the status
as it was or raises exactly one fault and commits nothing else; the model never stops on an instruction. -/
def Obligations.EveryInstructionCommitsOrRaises : Prop :=
  ∀ (i : Instr) (s : State), ∃ t, exec i s = .next t ∧
    ((t.status = s.status ∧ SameRun s t) ∨ ∃ kind addr, Raised s t kind addr)

/-- 60_exceptions.md R227 to R229: which instructions raise which fault. In a Running state ArithmeticOverflow is raised exactly by
add, addi and sub with legal operands whose exact result is out of range, InvalidImmediate exactly by an immediate out of its range,
MemoryAlignmentError exactly by sh and sw with a legal offset and a misaligned address. The fetch kinds are never raised here. -/
def Obligations.EachFaultHasItsInstructions : Prop :=
  ∀ (i : Instr) (s t : State), s.status = .running → exec i s = .next t →
    ((∃ rec, t.status = .faulted rec ∧ rec.kind = .invalidImmediate) ↔ i.wf = false) ∧
    ((∃ rec, t.status = .faulted rec ∧ rec.kind = .arithmeticOverflow) ↔
      i.wf = true ∧ ∃ v, exactResult s i = some v ∧ (v < -2 ^ 31 ∨ 2 ^ 31 - 1 < v)) ∧
    ((∃ rec, t.status = .faulted rec ∧ rec.kind = .memoryAlignmentError) ↔
      i.wf = true ∧ ∃ w rt offset base, storeOf i = some (w, rt, offset, base) ∧
        (effectiveAddress s base offset).toNat % w.bytes ≠ 0) ∧
    ∀ rec, t.status = .faulted rec → rec.kind ≠ .instructionFetchError ∧ rec.kind ≠ .reservedInstruction

/-- 60_exceptions.md R233: a faulting step changes nothing but the status, and pc holds the faulting instruction's address, which
the record names. Its addr is what section 1 (R225) records for its kind: 0 for ArithmeticOverflow and InvalidImmediate, the pc for
the two fetch kinds, and for MemoryAlignmentError the effective address of the store at the pc, which is misaligned for it. -/
def Obligations.AFaultingStepChangesOnlyTheStatus : Prop :=
  ∀ (s t : State) (rec : FaultRecord), step s = .next t → t.status = .faulted rec →
    t = { s with status := .faulted rec } ∧ rec.pc = s.pc ∧ rec.addrOk ∧
    (rec.kind = .memoryAlignmentError → ∃ i w rt offset base, s.fetch s.pc = .ok i ∧
      storeOf i = some (w, rt, offset, base) ∧ rec.addr = effectiveAddress s base offset ∧ rec.addr.toNat % w.bytes ≠ 0)

/-- 10_state.md section 2 (R37): only mult writes hi or lo. -/
def Obligations.OnlyMultWritesHiAndLo : Prop :=
  ∀ (s t : State), step s = .next t → (t.hi ≠ s.hi ∨ t.lo ≠ s.lo) →
    ∃ rs rt, s.fetch s.pc = .ok (.mult rs rt)

/-- 10_state.md section 2 (R37): no instruction reads hi or lo. Of two states that differ only there, the steps give either one and
the same state (hi and lo are written, with values that do not depend on them), or states that differ only there, each with the hi
and lo it started with. -/
def Obligations.NoInstructionReadsHiOrLo : Prop :=
  ∀ (s t : State) (hi lo : Word), step s = .next t →
    ∃ t', step { s with hi := hi, lo := lo } = .next t' ∧
      (t' = t ∨ (t.hi = s.hi ∧ t.lo = s.lo ∧ t' = { t with hi := hi, lo := lo }))

/-- 20_memory.md section 2 (R79): ENDIAN governs data accesses only: every instruction but a store takes the same step in either byte
order. -/
def Obligations.OnlyStoresDependOnEndian : Prop :=
  ∀ (i : Instr) (s t : State) (e : Endian), storeOf i = none → exec i s = .next t →
    exec i { s with endian := e } = .next { t with endian := e }

/-- 10_state.md sections 2 and 5 (R36, R53): after a step that commits, pc is the address of the next instruction, or a
control-flow instruction ran and pc is its target. -/
def Obligations.OnlyControlFlowLeavesTheSequence : Prop :=
  ∀ (s t : State), step s = .next t → t.status = .running → t.pc ≠ s.pc + 4 →
    ∃ i, s.fetch s.pc = .ok i ∧ targetAddress i = some t.pc

/-- 20_memory.md sections 1 and 4 (R71, R83): a step changes a byte of memory only by running a store, and only inside the bytes that
store names. -/
def Obligations.OnlyStoresChangeMemory : Prop :=
  ∀ (s t : State) (b : Nat), s.mem.wf → step s = .next t → t.mem.read b ≠ s.mem.read b →
    ∃ i w rt offset base, s.fetch s.pc = .ok i ∧ storeOf i = some (w, rt, offset, base) ∧
      (effectiveAddress s base offset).toNat ≤ b ∧ b < (effectiveAddress s base offset).toNat + w.bytes

/-- 10_state.md R39, R40, R42 and 20_memory.md R91 (sections 2, 3; 6): no step changes ENDIAN, LABELS, PROG_BASE, PROG or MEM_INIT,
so every address fetches after the step what it fetched before. -/
def Obligations.NoStepChangesTheProgramOrTheLaunch : Prop :=
  ∀ (s t : State), step s = .next t → SameRun s t ∧ t.progEnd = s.progEnd ∧ ∀ A, t.fetch A = s.fetch A

/-- Every step keeps the invariant, from every state that has it: canonical memory, the zero register's storage, an aligned
PROG_BASE, and a status that agrees with pc and the fault record. The storage clause is the model's choice (log entry 5). -/
def Obligations.StepKeepsTheInvariant : Prop :=
  ∀ (s t : State), s.Inv → step s = .next t → t.Inv

/-- 10_state.md R41 (section 3) and 70_reset_and_hazards.md section 5: along any run from a launched state the invariant holds, the
launch parameters stay, and a state that has ended is the run's last. The invariant's clause that the storage of register 0 holds 0
is the model's choice (log entry 5). -/
def Obligations.RunsKeepTheInvariantUntilTheyEnd : Prop :=
  ∀ (s t : State), s.Launched → Reaches s t → t.Inv ∧ SameRun s t ∧ ∀ u, Reaches t u → t.Ended → u = t

/-- 30_encoding.md section 2 (R107) and 10_state.md section 5: in the binary layer a 4-aligned pc stays 4-aligned, whatever runs. -/
def Obligations.BinaryLayerKeepsThePcAligned : Prop :=
  ∀ (s t : State), s.prog.binaryLayer = true → s.pc.toNat % 4 = 0 → step s = .next t → t.pc.toNat % 4 = 0

/-! ## The step -/

/-- 10_state.md section 5 (R50) and section 3 (R40): a Running state whose pc is the address of entry k of the program store runs
that term, in the state with pc advanced by 4. A program has fewer than 2^30 entries here, so that their addresses differ (log
entry 9). -/
def Obligations.StepRunsTheTermAtThePc : Prop :=
  ∀ (s : State) (program : List Instr) (k : Nat) (i : Instr), s.status = .running → s.prog = .terms program →
    program.length < 2 ^ 30 → program[k]? = some i → s.pc = s.progBase + BitVec.ofNat 32 (4 * k) →
    step s = exec i { s with pc := s.pc + 4 }

/-- 10_state.md section 5 (R50) and 30_encoding.md section 2 (R109): in the binary layer the step runs the term that the entry's word
decodes to at that address. As above, of a program with fewer than 2^30 entries (log entry 9). -/
def Obligations.StepRunsTheDecodedWordAtThePc : Prop :=
  ∀ (s : State) (ws : List Word) (k : Nat) (w : Word) (i : Instr), s.status = .running → s.prog = .words ws →
    ws.length < 2 ^ 30 → ws[k]? = some w → s.pc = s.progBase + BitVec.ofNat 32 (4 * k) → decode s.pc w = .ok i →
    step s = exec i { s with pc := s.pc + 4 }

/-- 60_exceptions.md R230 (and section 1, R231, for a program with fewer than 2^30 words, log entry 9): a Running state whose pc is
neither PROG_END nor the address of an entry faults with InstructionFetchError, and one whose entry's word is reserved with
ReservedInstruction; the record's pc and addr are the pc, and nothing but the status changes. -/
def Obligations.FetchFaultsAreRaisedAtThePc : Prop :=
  ∀ (s : State), s.status = .running → s.pc ≠ s.progEnd →
    ((∀ k, k < s.prog.length → s.pc ≠ s.progBase + BitVec.ofNat 32 (4 * k)) →
      step s = .next { s with status := .faulted ⟨.instructionFetchError, s.pc, s.pc⟩ }) ∧
    (∀ ws k w r, s.prog = .words ws → ws.length < 2 ^ 30 → ws[k]? = some w →
      s.pc = s.progBase + BitVec.ofNat 32 (4 * k) → decode s.pc w = .error r →
      step s = .next { s with status := .faulted ⟨.reservedInstruction, s.pc, s.pc⟩ })

/-- 10_state.md section 5 (R50) and 70_reset_and_hazards.md section 5: a Running state at PROG_END becomes Halted and nothing else
changes; a Halted or a Faulted state has no step, which the model answers by name (log entry 6). -/
def Obligations.RunsEndAtProgEndOrAtAFault : Prop :=
  ∀ (s : State),
    (s.status = .running → s.pc = s.progEnd → step s = .next { s with status := .halted }) ∧
    (s.status = .halted → step s = .fault .alreadyHalted) ∧
    (∀ rec, s.status = .faulted rec → step s = .fault (.alreadyFaulted rec))

/-- 44_control_flow.md R200: a control-flow instruction checks nothing about its target. It commits, pc is the target or the next
address, and where that address holds no instruction and is not PROG_END, it is the next step that faults with
InstructionFetchError, with that pc in the record. -/
def Obligations.AWildTargetFaultsAtTheNextFetch : Prop :=
  ∀ (s : State) (i : Instr) (target : Word), s.status = .running → s.pc ≠ s.progEnd → s.fetch s.pc = .ok i →
    targetAddress i = some target →
    ∃ t, step s = .next t ∧ t.status = .running ∧ (t.pc = target ∨ t.pc = s.pc + 4) ∧
      (t.pc ≠ t.progEnd → (∀ k, k < t.prog.length → t.pc ≠ t.progBase + BitVec.ofNat 32 (4 * k)) →
        step t = .next { t with status := .faulted ⟨.instructionFetchError, t.pc, t.pc⟩ })
end

