-- ==== Sys2Proof/Laws/Decode.lean ====
section
/-! SUPPORT. The small laws of the binary layer: what the field readers read from the three word formats, and how the formats
meet a mask. -/

namespace Sys2Proof

/-! ## Register fields -/

@[simp] theorem regOf_regBits (r : RegNum) : regOf (regBits r) = r := by
  apply Fin.ext
  have := r.isLt
  simp [regOf, regBits]

@[simp] theorem regBits_regOf (f : BitVec 5) : regBits (regOf f) = f := by
  simp [regOf, regBits]

/-! ## Fields of the formats (30_encoding.md R105, R106) -/

@[simp] theorem rsField_rType (op : BitVec 6) (rs rt rd sa : BitVec 5) (funct : BitVec 6) :
    rsField (rType op rs rt rd sa funct) = rs := by
  apply BitVec.eq_of_getLsbD_eq
  intro k hk
  simp only [rsField, rType, BitVec.getLsbD_extractLsb', BitVec.getLsbD_append, hk, decide_true, Bool.true_and]
  have h1 : ¬ 21 + k < 6 := by omega
  have h2 : ¬ 21 + k - 6 < 5 := by omega
  have h3 : ¬ 21 + k - 6 - 5 < 5 := by omega
  have h4 : ¬ 21 + k - 6 - 5 - 5 < 5 := by omega
  have h5 : 21 + k - 6 - 5 - 5 - 5 < 5 := by omega
  have h6 : 21 + k - 6 - 5 - 5 - 5 = k := by omega
  simp [h1, h2, h3, h4, h6, hk]

@[simp] theorem rtField_rType (op : BitVec 6) (rs rt rd sa : BitVec 5) (funct : BitVec 6) :
    rtField (rType op rs rt rd sa funct) = rt := by
  apply BitVec.eq_of_getLsbD_eq
  intro k hk
  simp only [rtField, rType, BitVec.getLsbD_extractLsb', BitVec.getLsbD_append, hk, decide_true, Bool.true_and]
  have h1 : ¬ 16 + k < 6 := by omega
  have h2 : ¬ 16 + k - 6 < 5 := by omega
  have h3 : ¬ 16 + k - 6 - 5 < 5 := by omega
  have h6 : 16 + k - 6 - 5 - 5 = k := by omega
  simp [h1, h2, h3, h6, hk]

@[simp] theorem rdField_rType (op : BitVec 6) (rs rt rd sa : BitVec 5) (funct : BitVec 6) :
    rdField (rType op rs rt rd sa funct) = rd := by
  apply BitVec.eq_of_getLsbD_eq
  intro k hk
  simp only [rdField, rType, BitVec.getLsbD_extractLsb', BitVec.getLsbD_append, hk, decide_true, Bool.true_and]
  have h1 : ¬ 11 + k < 6 := by omega
  have h2 : ¬ 11 + k - 6 < 5 := by omega
  have h6 : 11 + k - 6 - 5 = k := by omega
  simp [h1, h2, h6, hk]

@[simp] theorem saField_rType (op : BitVec 6) (rs rt rd sa : BitVec 5) (funct : BitVec 6) :
    saField (rType op rs rt rd sa funct) = sa := by
  apply BitVec.eq_of_getLsbD_eq
  intro k hk
  simp only [saField, rType, BitVec.getLsbD_extractLsb', BitVec.getLsbD_append, hk, decide_true, Bool.true_and]
  have h1 : ¬ 6 + k < 6 := by omega
  have h6 : 6 + k - 6 = k := by omega
  simp [h6, hk]

@[simp] theorem rsField_iType (op : BitVec 6) (rs rt : BitVec 5) (imm : BitVec 16) : rsField (iType op rs rt imm) = rs := by
  apply BitVec.eq_of_getLsbD_eq
  intro k hk
  simp only [rsField, iType, BitVec.getLsbD_extractLsb', BitVec.getLsbD_append, hk, decide_true, Bool.true_and]
  have h1 : ¬ 21 + k < 16 := by omega
  have h2 : ¬ 21 + k - 16 < 5 := by omega
  have h6 : 21 + k - 16 - 5 = k := by omega
  simp [h1, h2, h6, hk]

@[simp] theorem rtField_iType (op : BitVec 6) (rs rt : BitVec 5) (imm : BitVec 16) : rtField (iType op rs rt imm) = rt := by
  apply BitVec.eq_of_getLsbD_eq
  intro k hk
  simp only [rtField, iType, BitVec.getLsbD_extractLsb', BitVec.getLsbD_append, hk, decide_true, Bool.true_and]
  have h1 : ¬ 16 + k < 16 := by omega
  have h6 : 16 + k - 16 = k := by omega
  simp [h6, hk]

@[simp] theorem immField_iType (op : BitVec 6) (rs rt : BitVec 5) (imm : BitVec 16) :
    immField (iType op rs rt imm) = imm := by
  apply BitVec.eq_of_getLsbD_eq
  intro k hk
  simp only [immField, iType, BitVec.getLsbD_extractLsb', BitVec.getLsbD_append, hk, decide_true, Bool.true_and]
  simp [hk]

@[simp] theorem indexField_jType (op : BitVec 6) (index : BitVec 26) : indexField (jType op index) = index := by
  apply BitVec.eq_of_getLsbD_eq
  intro k hk
  simp only [indexField, jType, BitVec.getLsbD_extractLsb', BitVec.getLsbD_append, hk, decide_true, Bool.true_and]
  simp [hk]

/-! ## Masks -/

theorem rType_and (op op' : BitVec 6) (rs rt rd sa rs' rt' rd' sa' : BitVec 5) (fn fn' : BitVec 6) :
    rType op rs rt rd sa fn &&& rType op' rs' rt' rd' sa' fn' =
      rType (op &&& op') (rs &&& rs') (rt &&& rt') (rd &&& rd') (sa &&& sa') (fn &&& fn') := by
  have h : (op ++ rs ++ rt ++ rd ++ sa ++ fn) &&& (op' ++ rs' ++ rt' ++ rd' ++ sa' ++ fn') =
      (op &&& op') ++ (rs &&& rs') ++ (rt &&& rt') ++ (rd &&& rd') ++ (sa &&& sa') ++ (fn &&& fn') := by
    simp only [BitVec.and_append]
  exact h

theorem iType_and (op op' : BitVec 6) (rs rt rs' rt' : BitVec 5) (imm imm' : BitVec 16) :
    iType op rs rt imm &&& iType op' rs' rt' imm' = iType (op &&& op') (rs &&& rs') (rt &&& rt') (imm &&& imm') := by
  have h : (op ++ rs ++ rt ++ imm) &&& (op' ++ rs' ++ rt' ++ imm') =
      (op &&& op') ++ (rs &&& rs') ++ (rt &&& rt') ++ (imm &&& imm') := by
    simp only [BitVec.and_append]
  exact h

theorem jType_and (op op' : BitVec 6) (index index' : BitVec 26) :
    jType op index &&& jType op' index' = jType (op &&& op') (index &&& index') := by
  have h : (op ++ index) &&& (op' ++ index') = (op &&& op') ++ (index &&& index') := by
    simp only [BitVec.and_append]
  exact h

/-- A word matches a row when its fixed bits are the row's (30_encoding.md R108). -/
theorem matchesWord_of_and {m : Mnemonic} {w : Word} (h : w &&& m.mask = m.pattern) : m.matchesWord w = true := by
  simp [Mnemonic.matchesWord, h]

end Sys2Proof
end

