-- ==== Sys2Proof/Laws/Fetch.lean ====
section
/-! SUPPORT. Which addresses hold an entry of the program store (10_state.md R40), said once for the fetch of R50. -/

namespace Sys2Proof.Machine

/-- An address that holds entry k is `PROG_BASE + 4*k`, and k is inside the program. -/
theorem entryAt_eq_some {s : State} {A : Word} {k : Nat} (h : s.entryAt A = some k) :
    k < s.prog.length ∧ A = s.progBase + BitVec.ofNat 32 (4 * k) := by
  unfold State.entryAt at h
  simp only at h
  split at h
  · rename_i hc
    cases h
    refine ⟨hc.2, ?_⟩
    have : 4 * ((A - s.progBase).toNat / 4) = (A - s.progBase).toNat := by omega
    rw [this, BitVec.ofNat_toNat, BitVec.setWidth_eq, BitVec.add_comm, BitVec.sub_add_cancel]
  · cases h

/-- With fewer than 2^30 entries, `PROG_BASE + 4*k` holds entry k (log entry 9). -/
theorem entryAt_entry {s : State} {k : Nat} (hk : k < s.prog.length) (size : s.prog.length < 2 ^ 30) :
    s.entryAt (s.progBase + BitVec.ofNat 32 (4 * k)) = some k := by
  have : (s.progBase + BitVec.ofNat 32 (4 * k) - s.progBase).toNat = 4 * k := by
    rw [BitVec.add_comm, BitVec.add_sub_cancel, BitVec.toNat_ofNat]
    omega
  unfold State.entryAt
  simp only [this]
  rw [if_pos ⟨by omega, by omega⟩]
  congr 1
  omega

/-- With fewer than 2^30 entries, no entry stands at PROG_END. -/
theorem entry_ne_progEnd {s : State} {k : Nat} (hk : k < s.prog.length) (size : s.prog.length < 2 ^ 30) :
    s.progBase + BitVec.ofNat 32 (4 * k) ≠ s.progEnd := by
  intro he
  have := congrArg (fun x => (x - s.progBase).toNat) he
  simp only [State.progEnd, BitVec.add_comm s.progBase, BitVec.add_sub_cancel, BitVec.toNat_ofNat] at this
  omega

/-- An address that holds no entry. -/
theorem entryAt_eq_none {s : State} {A : Word}
    (h : ∀ k, k < s.prog.length → A ≠ s.progBase + BitVec.ofNat 32 (4 * k)) : s.entryAt A = none := by
  cases he : s.entryAt A with
  | none => rfl
  | some k => exact absurd (entryAt_eq_some he).2 (h k (entryAt_eq_some he).1)

/-- A fetch of the binary layer that succeeds decodes a word at that address. -/
theorem decode_of_fetch {s : State} {A : Word} {i : Instr} (layer : s.prog.binaryLayer = true) (h : s.fetch A = .ok i) :
    ∃ w, decode A w = .ok i := by
  unfold State.fetch at h
  split at h
  · cases h
  · cases hp : s.prog with
    | terms l =>
      rw [hp] at layer
      cases layer
    | words l =>
      simp only [hp] at h
      repeat' split at h
      all_goals cases h
      exact ⟨_, by assumption⟩

end Sys2Proof.Machine
end

