-- ==== Sys2Proof/Laws/Operands.lean ====
section
/-! SUPPORT. What the readings of a pattern are as integers (00_scope.md R8, R10), for proofs that compute with `omega`. -/

namespace Sys2Proof.Machine

/-- `uint32(v)` is `v mod 2^32`. -/
theorem uint32_toNat (v : Int) : ((uint32 v).toNat : Int) = v % 2 ^ 32 := by
  unfold uint32
  rw [BitVec.toNat_ofInt]
  omega

/-- `uint32` of an unsigned 32-bit value is that value. -/
theorem uint32_toNat_of_range {v : Int} (low : 0 ≤ v) (high : v < 2 ^ 32) : (uint32 v).toNat = v.toNat := by
  have := uint32_toNat v
  omega

/-- The signed reading of a stored value is the normalised value. -/
theorem sint32_uint32 (v : Int) : sint32 (uint32 v) = overflowDetect v := by
  unfold sint32 uint32 overflowDetect
  rw [BitVec.toInt_ofInt]
  simp only [Int.bmod]
  omega

/-- The range of the signed reading. -/
theorem sint32_range (p : Word) : -2147483648 ≤ sint32 p ∧ sint32 p ≤ 2147483647 := by
  have low := BitVec.le_toInt (x := p)
  have high := BitVec.toInt_lt (x := p)
  unfold sint32
  constructor <;> omega

/-- A value of the signed range is stored and read back as itself. -/
theorem sint32_uint32_of_fits {v : Int} (low : -2147483648 ≤ v) (high : v ≤ 2147483647) : sint32 (uint32 v) = v := by
  rw [sint32_uint32]
  unfold overflowDetect
  omega

end Sys2Proof.Machine
end

