-- ==== Sys2Proof/Laws/State.lean ====
section
/-! SUPPORT. One lemma for each field and update of State, and the register file's read-after-write laws, so that no later
proof unfolds a record update. -/

namespace Sys2Proof.Machine

/-! ## setReg -/

@[simp] theorem State.setReg_pc (s : State) (i : RegNum) (v : Word) : (s.setReg i v).pc = s.pc := by
  unfold State.setReg; split <;> rfl

@[simp] theorem State.setReg_hi (s : State) (i : RegNum) (v : Word) : (s.setReg i v).hi = s.hi := by
  unfold State.setReg; split <;> rfl

@[simp] theorem State.setReg_lo (s : State) (i : RegNum) (v : Word) : (s.setReg i v).lo = s.lo := by
  unfold State.setReg; split <;> rfl

@[simp] theorem State.setReg_mem (s : State) (i : RegNum) (v : Word) : (s.setReg i v).mem = s.mem := by
  unfold State.setReg; split <;> rfl

@[simp] theorem State.setReg_endian (s : State) (i : RegNum) (v : Word) : (s.setReg i v).endian = s.endian := by
  unfold State.setReg; split <;> rfl

@[simp] theorem State.setReg_labels (s : State) (i : RegNum) (v : Word) : (s.setReg i v).labels = s.labels := by
  unfold State.setReg; split <;> rfl

@[simp] theorem State.setReg_progBase (s : State) (i : RegNum) (v : Word) : (s.setReg i v).progBase = s.progBase := by
  unfold State.setReg; split <;> rfl

@[simp] theorem State.setReg_prog (s : State) (i : RegNum) (v : Word) : (s.setReg i v).prog = s.prog := by
  unfold State.setReg; split <;> rfl

@[simp] theorem State.setReg_status (s : State) (i : RegNum) (v : Word) : (s.setReg i v).status = s.status := by
  unfold State.setReg; split <;> rfl

theorem State.setReg_zero (s : State) (v : Word) : s.setReg 0 v = s := rfl

@[simp] theorem State.getReg_zero (s : State) : s.getReg 0 = 0 := rfl

/-- The register file is a register file (10_state.md R33, R34): a read after a write gives the pattern written, unless the
register is 0; every other register reads as before. -/
theorem State.getReg_setReg (s : State) (i j : RegNum) (v : Word) :
    (s.setReg i v).getReg j = if j = i ∧ i ≠ 0 then v else s.getReg j := by
  unfold State.getReg State.setReg
  by_cases hi : i = 0
  · simp [hi]
  · by_cases hj : j = 0
    · subst hj; simp [Ne.symm hi]
    · by_cases hji : j = i
      · subst hji; simp [hj]
      · have : ¬ (i.val = j.val) := fun h => hji (Fin.ext h.symm)
        simp [hi, hj, hji, this]

theorem State.getReg_setReg_same (s : State) {i : RegNum} (h : i ≠ 0) (v : Word) : (s.setReg i v).getReg i = v := by
  simp [State.getReg_setReg, h]

theorem State.getReg_setReg_other (s : State) {i j : RegNum} (h : j ≠ i) (v : Word) :
    (s.setReg i v).getReg j = s.getReg j := by
  simp [State.getReg_setReg, h]

/-- The storage of register 0 is never written. -/
@[simp] theorem State.setReg_gpr_zero (s : State) (i : RegNum) (v : Word) : (s.setReg i v).gpr[0] = s.gpr[0] := by
  unfold State.setReg
  split
  · rfl
  · rename_i h
    have : ¬ i.val = 0 := fun e => h (Fin.ext e)
    simp [this]

/-! ## the ports -/

/-- What a port register holds after one `set`, whichever register that was (10_state.md R33, R34). -/
theorem State.portPattern_portSet (s : State) (r q : PortReg) (v : Int) :
    (s.portSet r v).portPattern q = if q = r ∧ r ≠ .gpr 0 then uint32 v else s.portPattern q := by
  cases r <;> cases q <;> simp [State.portSet, State.portPattern, State.getReg_setReg]
  all_goals rfl

/-! ## State.jumpTo -/

@[simp] theorem State.jumpTo_pc (s : State) (a : Word) : (s.jumpTo a).pc = a := rfl
@[simp] theorem State.jumpTo_hi (s : State) (a : Word) : (s.jumpTo a).hi = s.hi := rfl
@[simp] theorem State.jumpTo_lo (s : State) (a : Word) : (s.jumpTo a).lo = s.lo := rfl
@[simp] theorem State.jumpTo_mem (s : State) (a : Word) : (s.jumpTo a).mem = s.mem := rfl
@[simp] theorem State.jumpTo_endian (s : State) (a : Word) : (s.jumpTo a).endian = s.endian := rfl
@[simp] theorem State.jumpTo_labels (s : State) (a : Word) : (s.jumpTo a).labels = s.labels := rfl
@[simp] theorem State.jumpTo_progBase (s : State) (a : Word) : (s.jumpTo a).progBase = s.progBase := rfl
@[simp] theorem State.jumpTo_prog (s : State) (a : Word) : (s.jumpTo a).prog = s.prog := rfl
@[simp] theorem State.jumpTo_status (s : State) (a : Word) : (s.jumpTo a).status = s.status := rfl
@[simp] theorem State.jumpTo_gpr (s : State) (a : Word) : (s.jumpTo a).gpr = s.gpr := rfl
@[simp] theorem State.jumpTo_getReg (s : State) (a : Word) (r : RegNum) : (s.jumpTo a).getReg r = s.getReg r := rfl

/-! ## State.advance -/

@[simp] theorem State.advance_pc (s : State) : (s.advance).pc = s.pc + 4 := rfl
@[simp] theorem State.advance_hi (s : State) : (s.advance).hi = s.hi := rfl
@[simp] theorem State.advance_lo (s : State) : (s.advance).lo = s.lo := rfl
@[simp] theorem State.advance_mem (s : State) : (s.advance).mem = s.mem := rfl
@[simp] theorem State.advance_endian (s : State) : (s.advance).endian = s.endian := rfl
@[simp] theorem State.advance_labels (s : State) : (s.advance).labels = s.labels := rfl
@[simp] theorem State.advance_progBase (s : State) : (s.advance).progBase = s.progBase := rfl
@[simp] theorem State.advance_prog (s : State) : (s.advance).prog = s.prog := rfl
@[simp] theorem State.advance_status (s : State) : (s.advance).status = s.status := rfl
@[simp] theorem State.advance_gpr (s : State) : (s.advance).gpr = s.gpr := rfl
@[simp] theorem State.advance_getReg (s : State) (r : RegNum) : (s.advance).getReg r = s.getReg r := rfl

/-! ## takeFault -/

@[simp] theorem takeFault_pc (s : State) (k : FaultKind) (a d : Word) : (takeFault s k a d).pc = a := rfl
@[simp] theorem takeFault_hi (s : State) (k : FaultKind) (a d : Word) : (takeFault s k a d).hi = s.hi := rfl
@[simp] theorem takeFault_lo (s : State) (k : FaultKind) (a d : Word) : (takeFault s k a d).lo = s.lo := rfl
@[simp] theorem takeFault_mem (s : State) (k : FaultKind) (a d : Word) : (takeFault s k a d).mem = s.mem := rfl
@[simp] theorem takeFault_endian (s : State) (k : FaultKind) (a d : Word) : (takeFault s k a d).endian = s.endian := rfl
@[simp] theorem takeFault_labels (s : State) (k : FaultKind) (a d : Word) : (takeFault s k a d).labels = s.labels := rfl
@[simp] theorem takeFault_progBase (s : State) (k : FaultKind) (a d : Word) : (takeFault s k a d).progBase = s.progBase := rfl
@[simp] theorem takeFault_prog (s : State) (k : FaultKind) (a d : Word) : (takeFault s k a d).prog = s.prog := rfl
@[simp] theorem takeFault_status (s : State) (k : FaultKind) (a d : Word) : (takeFault s k a d).status = .faulted ⟨k, a, d⟩ := rfl
@[simp] theorem takeFault_gpr (s : State) (k : FaultKind) (a d : Word) : (takeFault s k a d).gpr = s.gpr := rfl
@[simp] theorem takeFault_getReg (s : State) (k : FaultKind) (a d : Word) (r : RegNum) : (takeFault s k a d).getReg r = s.getReg r := rfl

/-! ## fetchFault -/

@[simp] theorem fetchFault_pc (s : State) (k : FaultKind) : (fetchFault s k).pc = s.pc := rfl
@[simp] theorem fetchFault_hi (s : State) (k : FaultKind) : (fetchFault s k).hi = s.hi := rfl
@[simp] theorem fetchFault_lo (s : State) (k : FaultKind) : (fetchFault s k).lo = s.lo := rfl
@[simp] theorem fetchFault_mem (s : State) (k : FaultKind) : (fetchFault s k).mem = s.mem := rfl
@[simp] theorem fetchFault_endian (s : State) (k : FaultKind) : (fetchFault s k).endian = s.endian := rfl
@[simp] theorem fetchFault_labels (s : State) (k : FaultKind) : (fetchFault s k).labels = s.labels := rfl
@[simp] theorem fetchFault_progBase (s : State) (k : FaultKind) : (fetchFault s k).progBase = s.progBase := rfl
@[simp] theorem fetchFault_prog (s : State) (k : FaultKind) : (fetchFault s k).prog = s.prog := rfl
@[simp] theorem fetchFault_status (s : State) (k : FaultKind) : (fetchFault s k).status = .faulted ⟨k, s.pc, s.pc⟩ := rfl
@[simp] theorem fetchFault_gpr (s : State) (k : FaultKind) : (fetchFault s k).gpr = s.gpr := rfl
@[simp] theorem fetchFault_getReg (s : State) (k : FaultKind) (r : RegNum) : (fetchFault s k).getReg r = s.getReg r := rfl

/-! ## writeProduct -/

@[simp] theorem writeProduct_pc (s : State) (p : Int) : (writeProduct s p).pc = s.pc := rfl
@[simp] theorem writeProduct_hi (s : State) (p : Int) : (writeProduct s p).hi = (BitVec.ofInt 64 p).extractLsb' 32 32 := rfl
@[simp] theorem writeProduct_lo (s : State) (p : Int) : (writeProduct s p).lo = (BitVec.ofInt 64 p).extractLsb' 0 32 := rfl
@[simp] theorem writeProduct_mem (s : State) (p : Int) : (writeProduct s p).mem = s.mem := rfl
@[simp] theorem writeProduct_endian (s : State) (p : Int) : (writeProduct s p).endian = s.endian := rfl
@[simp] theorem writeProduct_labels (s : State) (p : Int) : (writeProduct s p).labels = s.labels := rfl
@[simp] theorem writeProduct_progBase (s : State) (p : Int) : (writeProduct s p).progBase = s.progBase := rfl
@[simp] theorem writeProduct_prog (s : State) (p : Int) : (writeProduct s p).prog = s.prog := rfl
@[simp] theorem writeProduct_status (s : State) (p : Int) : (writeProduct s p).status = s.status := rfl
@[simp] theorem writeProduct_gpr (s : State) (p : Int) : (writeProduct s p).gpr = s.gpr := rfl
@[simp] theorem writeProduct_getReg (s : State) (p : Int) (r : RegNum) : (writeProduct s p).getReg r = s.getReg r := rfl

/-! ## linkTo -/

@[simp] theorem State.linkTo_pc (s : State) (a : Word) : (s.linkTo a).pc = a := by simp [State.linkTo]
@[simp] theorem State.linkTo_hi (s : State) (a : Word) : (s.linkTo a).hi = s.hi := by simp [State.linkTo]
@[simp] theorem State.linkTo_lo (s : State) (a : Word) : (s.linkTo a).lo = s.lo := by simp [State.linkTo]
@[simp] theorem State.linkTo_mem (s : State) (a : Word) : (s.linkTo a).mem = s.mem := by simp [State.linkTo]
@[simp] theorem State.linkTo_endian (s : State) (a : Word) : (s.linkTo a).endian = s.endian := by simp [State.linkTo]
@[simp] theorem State.linkTo_labels (s : State) (a : Word) : (s.linkTo a).labels = s.labels := by simp [State.linkTo]
@[simp] theorem State.linkTo_progBase (s : State) (a : Word) : (s.linkTo a).progBase = s.progBase := by simp [State.linkTo]
@[simp] theorem State.linkTo_prog (s : State) (a : Word) : (s.linkTo a).prog = s.prog := by simp [State.linkTo]
@[simp] theorem State.linkTo_status (s : State) (a : Word) : (s.linkTo a).status = s.status := by simp [State.linkTo]
@[simp] theorem State.linkTo_gpr_zero (s : State) (a : Word) : (s.linkTo a).gpr[0] = s.gpr[0] := by simp [State.linkTo]
theorem State.linkTo_getReg (s : State) (a : Word) (r : RegNum) :
    (s.linkTo a).getReg r = if r = raReg then s.pc else s.getReg r := by
  have h : raReg ≠ 0 := by decide
  simp [State.linkTo, State.getReg_setReg, h]

/-! ## the memory field -/

@[simp] theorem State.withMem_getReg (s : State) (m : Memory) (r : RegNum) : ({ s with mem := m } : State).getReg r = s.getReg r := rfl

@[simp] theorem State.withStatus_getReg (s : State) (x : Status) (r : RegNum) :
    ({ s with status := x } : State).getReg r = s.getReg r := rfl

/-- The pc of Execute gives the instruction's address back (10_state.md R52). -/
@[simp] theorem State.advance_instrAddress (s : State) : s.advance.instrAddress = s.pc := by
  simp [State.instrAddress]

/-! ## what fetch reads -/

/-- Fetch depends on the program store and on nothing else (20_memory.md R79, R91). -/
theorem State.fetch_congr {s t : State} (hb : t.progBase = s.progBase) (hp : t.prog = s.prog) (A : Word) :
    t.fetch A = s.fetch A := by
  unfold State.fetch State.entryAt
  rw [hb, hp]

theorem State.progEnd_congr {s t : State} (hb : t.progBase = s.progBase) (hp : t.prog = s.prog) : t.progEnd = s.progEnd := by
  unfold State.progEnd
  rw [hb, hp]

end Sys2Proof.Machine
end

