-- ==== Sys2Proof/Laws/Loader.lean ====
section
/-! SUPPORT. What each loader action does when it is not refused (20_memory.md R81, R82; 70_reset_and_hazards.md R257), said once,
for proofs about `boot`. -/

namespace Sys2Proof.Machine

theorem addressOf_eq_ok {v : Int} {a : Word} (h : addressOf v = .ok a) : 0 ≤ v ∧ v < 2 ^ 32 ∧ a = uint32 v := by
  unfold addressOf at h
  split at h <;> cases h
  rename_i hv
  exact ⟨hv.1, hv.2, rfl⟩

theorem addressOf_of_range {v : Int} (low : 0 ≤ v) (high : v < 2 ^ 32) : addressOf v = .ok (uint32 v) := by
  unfold addressOf
  rw [if_pos ⟨low, high⟩]

/-- What is found after one more name is bound. -/
theorem lookupName_append {α : Type} (l : List (String × α)) (n m : String) (v : α) (h : lookupName l n = none) :
    lookupName (l ++ [(n, v)]) m = if m = n then some v else lookupName l m := by
  induction l with
  | nil => simp [lookupName, eq_comm]
  | cons c t ih =>
    obtain ⟨k, w⟩ := c
    simp only [lookupName] at h
    split at h
    · cases h
    · rename_i hk
      simp only [List.cons_append, lookupName, ih h]
      by_cases hm : k = m
      · subst hm
        simp [hk]
      · simp [hm]

/-- An `add_byte` that is not refused writes one byte of memory and nothing else. -/
theorem addByte_eq_ok {u u' : Setup} {v a : Int} (h : u.addByte v a = .ok u') :
    ∃ w : Word, addressOf a = .ok w ∧
      u' = { u with machine := { u.machine with mem := u.machine.mem.write w.toNat (BitVec.ofInt 8 v) } } := by
  unfold Setup.addByte at h
  repeat' split at h
  all_goals cases h
  exact ⟨_, by assumption, rfl⟩

/-- An `add_label` that is not refused binds one name and does nothing else. -/
theorem addLabel_eq_ok {u u' : Setup} {n : String} {a : Int} (h : u.addLabel n a = .ok u') :
    u' = { u with machine := { u.machine with labels := u.machine.labels ++ [(n, uint32 a)] } } := by
  unfold Setup.addLabel at h
  repeat' split at h
  all_goals cases h
  rename_i ha
  rw [(addressOf_eq_ok ha).2.2]

/-- A program that is not refused fills the program store at an aligned PROG_BASE and does nothing else. -/
theorem loadText_eq_ok {u u' : Setup} {base : Word} {layer : Bool} {text : List String}
    (h : u.loadText base layer text = .ok u') :
    base.toNat % 4 = 0 ∧ ∃ program p, assembleText u.machine.labels text = .ok program ∧
      u' = { u with machine := { u.machine with progBase := base, prog := p } } ∧ p.binaryLayer = layer ∧
      (layer = false → p = .terms program) ∧ (layer = true → ∃ ws, encodeProgram base program = .ok ws ∧ p = .words ws) := by
  unfold Setup.loadText at h
  split at h
  · cases h
  · rename_i program hp
    unfold Setup.loadTerms at h
    repeat' split at h
    all_goals cases h
    · exact ⟨by assumption, program, _, hp, rfl, by simp_all [Program.binaryLayer], by simp_all,
        fun _ => ⟨_, by assumption, rfl⟩⟩
    · exact ⟨by assumption, program, _, hp, rfl, by simp_all [Program.binaryLayer], by simp_all, by simp_all⟩

/-- A program with a first instruction that has words: that instruction's word, and the words of the rest at the next address. -/
theorem encodeProgram_cons {A : Word} {i : Instr} {rest : List Instr} {ws : List Word}
    (h : encodeProgram A (i :: rest) = .ok ws) :
    ∃ w more, encode A i = some w ∧ encodeProgram (A + 4) rest = .ok more ∧ ws = w :: more := by
  simp only [encodeProgram] at h
  split at h
  · cases h
  · rename_i w hw
    cases hm : encodeProgram (A + 4) rest with
    | error e =>
      rw [hm] at h
      cases h
    | ok more =>
      rw [hm] at h
      cases h
      exact ⟨w, more, hw, rfl, rfl⟩

/-! ## The run before its start -/

@[simp] theorem Setup.state_gpr (u : Setup) : u.state.gpr = u.machine.gpr := rfl
@[simp] theorem Setup.state_hi (u : Setup) : u.state.hi = u.machine.hi := rfl
@[simp] theorem Setup.state_lo (u : Setup) : u.state.lo = u.machine.lo := rfl
@[simp] theorem Setup.state_mem (u : Setup) : u.state.mem = u.machine.mem := rfl
@[simp] theorem Setup.state_endian (u : Setup) : u.state.endian = u.machine.endian := rfl
@[simp] theorem Setup.state_labels (u : Setup) : u.state.labels = u.machine.labels := rfl
@[simp] theorem Setup.state_progBase (u : Setup) : u.state.progBase = u.machine.progBase := rfl
@[simp] theorem Setup.state_prog (u : Setup) : u.state.prog = u.machine.prog := rfl
@[simp] theorem Setup.state_getReg (u : Setup) (r : RegNum) : u.state.getReg r = u.machine.getReg r := rfl
@[simp] theorem Setup.start_status (u : Setup) : u.start.status = .running := rfl

/-- The start changes no register that a port shows. -/
@[simp] theorem Setup.start_portPattern (u : Setup) (r : PortReg) : u.start.portPattern r = u.state.portPattern r := by
  cases r <;> rfl

/-- A `set` before the run is one at the port (`State.portPattern_portSet`), where a set of pc also ends PROG_BASE's default. -/
theorem Setup.portPattern_set (u : Setup) (r q : PortReg) (v : Int) :
    (u.set r v).state.portPattern q = if q = r ∧ r ≠ .gpr 0 then uint32 v else u.state.portPattern q := by
  have h := State.portPattern_portSet u.machine r q v
  cases r <;> cases q <;> simp [Setup.set, Setup.state, State.portPattern, State.portSet] at h ⊢ <;> exact h

end Sys2Proof.Machine
end

