-- ==== Sys2Proof/Laws/Memory.lean ====
section
/-! SUPPORT. The laws of the data memory: a read after a write, the canonical form kept by every operation, equal contents are
equal data, and what MemRead and MemWrite answer. -/

namespace Sys2Proof.Machine

/-! ## Lists of cells -/

/-- Every listed address lies above `a`. -/
abbrev cellsAbove (a : Nat) (l : List Host.Cell) : Prop := ∀ c ∈ l, a < c.1

theorem lookupCell_eq_none_of_above {a : Nat} : ∀ {l : List Host.Cell}, cellsAbove a l → lookupCell l a = none
  | [], _ => rfl
  | (b, v) :: rest, h => by
    have hb : a < b := h (b, v) (by simp)
    have hr : cellsAbove a rest := fun c hc => h c (by simp [hc])
    simp [lookupCell, Nat.ne_of_lt hb, lookupCell_eq_none_of_above hr]

theorem lookupCell_putCell (l : List Host.Cell) (h : l.Pairwise (fun c d => c.1 < d.1)) (a b : Nat) (o : Option Byte) :
    lookupCell (putCell l a o) b = if b = a then o else lookupCell l b := by
  induction l with
  | nil => cases o <;> by_cases hb : b = a <;> simp [putCell, lookupCell, hb]
  | cons c rest ih =>
    obtain ⟨k, w⟩ := c
    rw [List.pairwise_cons] at h
    have ih := ih h.2
    have habove : cellsAbove k rest := fun c hc => h.1 c hc
    unfold putCell
    by_cases h1 : a < k
    · rw [if_pos h1]
      cases o with
      | some v =>
        by_cases hb : b = a <;> simp [lookupCell, hb]
      | none =>
        by_cases hb : b = a
        · subst hb
          have : cellsAbove b ((k, w) :: rest) := by
            intro c hc
            rcases List.mem_cons.mp hc with rfl | hc
            · exact h1
            · exact Nat.lt_trans h1 (habove c hc)
          simp [lookupCell_eq_none_of_above this]
        · simp [hb]
    · by_cases h2 : a = k
      · subst h2
        rw [if_neg h1, if_pos rfl]
        cases o with
        | some v => by_cases hb : b = a <;> simp [lookupCell, hb]
        | none =>
          by_cases hb : b = a
          · subst hb; simp [lookupCell_eq_none_of_above habove]
          · simp [lookupCell, hb]
      · rw [if_neg h1, if_neg h2]
        by_cases hk : b = k
        · subst hk; simp [lookupCell, Ne.symm h2]
        · simp [lookupCell, hk, ih]

theorem mem_putCell {l : List Host.Cell} {a : Nat} {o : Option Byte} {c : Host.Cell} (h : c ∈ putCell l a o) :
    c ∈ l ∨ (c.1 = a ∧ o = some c.2) := by
  induction l with
  | nil => cases o <;> simp_all [putCell]
  | cons d rest ih =>
    obtain ⟨k, w⟩ := d
    unfold putCell at h
    split at h
    · cases o
      · exact .inl h
      · rcases List.mem_cons.mp h with rfl | h
        · exact .inr ⟨rfl, rfl⟩
        · exact .inl h
    · split at h
      · cases o
        · exact .inl (List.mem_cons_of_mem _ h)
        · rcases List.mem_cons.mp h with rfl | h
          · exact .inr ⟨rfl, rfl⟩
          · exact .inl (List.mem_cons_of_mem _ h)
      · rcases List.mem_cons.mp h with rfl | h
        · exact .inl (List.mem_cons_self ..)
        · exact (ih h).imp_left (List.mem_cons_of_mem _)

theorem putCell_rising {l : List Host.Cell} (h : l.Pairwise (fun c d => c.1 < d.1)) (a : Nat) (o : Option Byte) :
    (putCell l a o).Pairwise (fun c d => c.1 < d.1) := by
  induction l with
  | nil => cases o <;> simp [putCell]
  | cons d rest ih =>
    obtain ⟨k, w⟩ := d
    have hc := List.pairwise_cons.mp h
    unfold putCell
    split
    · rename_i hak
      cases o with
      | none => exact h
      | some v =>
        refine List.pairwise_cons.mpr ⟨fun c hc' => ?_, h⟩
        rcases List.mem_cons.mp hc' with rfl | hc'
        · exact hak
        · exact Nat.lt_trans hak (hc.1 c hc')
    · split
      · rename_i hak
        subst hak
        cases o with
        | none => exact hc.2
        | some v => exact List.pairwise_cons.mpr ⟨hc.1, hc.2⟩
      · rename_i h1 h2
        refine List.pairwise_cons.mpr ⟨fun c hc' => ?_, ih hc.2⟩
        rcases mem_putCell hc' with hm | ⟨he, -⟩
        · exact hc.1 c hm
        · change k < c.1
          omega

theorem lookupCell_eq_some {l : List Host.Cell} {a : Nat} {v : Byte} (h : lookupCell l a = some v) : (a, v) ∈ l := by
  induction l with
  | nil => simp [lookupCell] at h
  | cons d rest ih =>
    obtain ⟨k, w⟩ := d
    unfold lookupCell at h
    split at h
    · rename_i hk
      cases h
      simp [hk]
    · exact List.mem_cons_of_mem _ (ih h)

/-- Two canonical lists that read alike over the same unlisted bytes are the same list. -/
theorem cellsWf_ext {u : Nat → Byte} : ∀ {l k : List Host.Cell}, cellsWf u l → cellsWf u k →
    (∀ a, (lookupCell l a).getD (u a) = (lookupCell k a).getD (u a)) → l = k
  | [], [], _, _, _ => rfl
  | [], (b, w) :: k, _, hk, h => by
    have hne := (hk.2 (b, w) (by simp)).2
    have := h b
    simp [lookupCell] at this
    exact absurd this.symm hne
  | (b, w) :: l, [], hl, _, h => by
    have hne := (hl.2 (b, w) (by simp)).2
    have := h b
    simp [lookupCell] at this
    exact absurd this hne
  | (b, w) :: l, (b', w') :: k, hl, hk, h => by
    have hl1 := List.pairwise_cons.mp hl.1
    have hk1 := List.pairwise_cons.mp hk.1
    have hwl := (hl.2 (b, w) (by simp)).2
    have hwk := (hk.2 (b', w') (by simp)).2
    have hb : b = b' := by
      rcases Nat.lt_trichotomy b b' with hlt | he | hgt
      · have ha : cellsAbove b ((b', w') :: k) := fun c hc => by
          rcases List.mem_cons.mp hc with rfl | hc
          · exact hlt
          · exact Nat.lt_trans hlt (hk1.1 c hc)
        have := h b
        rw [lookupCell_eq_none_of_above ha] at this
        simp [lookupCell] at this
        exact absurd this hwl
      · exact he
      · have ha : cellsAbove b' ((b, w) :: l) := fun c hc => by
          rcases List.mem_cons.mp hc with rfl | hc
          · exact hgt
          · exact Nat.lt_trans hgt (hl1.1 c hc)
        have := h b'
        rw [lookupCell_eq_none_of_above ha] at this
        simp [lookupCell] at this
        exact absurd this.symm hwk
    subst hb
    have hw : w = w' := by simpa [lookupCell] using h b
    subst hw
    have hrest : l = k := by
      refine cellsWf_ext ⟨hl1.2, fun c hc => hl.2 c (by simp [hc])⟩ ⟨hk1.2, fun c hc => hk.2 c (by simp [hc])⟩ fun a => ?_
      by_cases ha : a = b
      · subst ha
        rw [lookupCell_eq_none_of_above (fun c hc => hl1.1 c hc), lookupCell_eq_none_of_above (fun c hc => hk1.1 c hc)]
      · simpa [lookupCell, ha] using h a
    rw [hrest]

/-! ## One byte -/

@[simp] theorem Memory.write_init (m : Memory) (a : Nat) (v : Byte) : (m.write a v).init = m.init := rfl

/-- A read after a write gives the byte written at its address and the old byte elsewhere (20_memory.md R71). -/
theorem Memory.read_write {m : Memory} (h : m.wf) (a b : Nat) (v : Byte) :
    (m.write a v).read b = if b = a then v else m.read b := by
  unfold Memory.read Memory.write
  rw [lookupCell_putCell _ h.2.1]
  by_cases hb : b = a
  · subst hb
    by_cases hv : v = m.init.byteAt b <;> simp [hv]
  · simp [hb]

/-- A write inside the address space keeps the canonical form. -/
theorem Memory.write_wf {m : Memory} (h : m.wf) {a : Nat} (ha : a < 2 ^ 32) (v : Byte) : (m.write a v).wf := by
  refine ⟨h.1, putCell_rising h.2.1 _ _, fun c hc => ?_⟩
  rcases mem_putCell hc with hm | ⟨he, ho⟩
  · exact h.2.2 c hm
  · refine ⟨he ▸ ha, ?_⟩
    by_cases hv : v = m.init.byteAt a
    · simp [hv] at ho
    · rw [if_neg hv] at ho
      cases ho
      rw [he]
      exact hv

/-- Equal memories are equal data: canonical memories of the same MEM_INIT that read alike are the same. -/
theorem Memory.ext_of_read {m k : Memory} (hm : m.wf) (hk : k.wf) (hi : m.init = k.init) (h : ∀ a, m.read a = k.read a) :
    m = k := by
  obtain ⟨i, l⟩ := m
  obtain ⟨i', l'⟩ := k
  cases hi
  exact congrArg (Memory.mk i) (cellsWf_ext hm.2 hk.2 h)

/-! ## Several bytes -/

@[simp] theorem Memory.writeBytes_init (m : Memory) (a : Nat) (bs : List Byte) : (m.writeBytes a bs).init = m.init := by
  induction bs generalizing m a with
  | nil => rfl
  | cons v rest ih => simp [Memory.writeBytes, ih]

theorem Memory.writeBytes_wf {m : Memory} (h : m.wf) {a : Nat} {bs : List Byte} (ha : a + bs.length ≤ 2 ^ 32) :
    (m.writeBytes a bs).wf := by
  induction bs generalizing m a with
  | nil => exact h
  | cons v rest ih =>
    simp only [List.length_cons] at ha
    exact ih (Memory.write_wf h (by omega) v) (by omega)

/-- What a block of bytes written reads as: its own bytes inside, the old bytes outside (20_memory.md R71). -/
theorem Memory.read_writeBytes {m : Memory} (h : m.wf) {a : Nat} {bs : List Byte} (ha : a + bs.length ≤ 2 ^ 32) (b : Nat) :
    (m.writeBytes a bs).read b = if a ≤ b then (bs[b - a]?).getD (m.read b) else m.read b := by
  induction bs generalizing m a with
  | nil => simp [Memory.writeBytes]
  | cons v rest ih =>
    simp only [List.length_cons] at ha
    have hw := Memory.write_wf h (show a < 2 ^ 32 by omega) v
    rw [Memory.writeBytes, ih hw (by omega), Memory.read_write h]
    by_cases hab : b = a
    · subst hab
      have : ¬ b + 1 ≤ b := by omega
      simp [this]
    · by_cases hlt : a ≤ b
      · have h1 : a + 1 ≤ b := by omega
        have h2 : b - a = (b - (a + 1)) + 1 := by omega
        simp [hab, hlt, h1, h2]
      · have h1 : ¬ a + 1 ≤ b := by omega
        simp [hab, hlt, h1]

theorem Memory.readBytes_eq (m : Memory) (a n : Nat) : m.readBytes a n = (List.range n).map fun i => m.read (a + i) := by
  induction n generalizing a with
  | zero => rfl
  | succ n ih =>
    rw [Memory.readBytes, ih, List.range_succ_eq_map]
    simp only [List.map_cons, List.map_map, Nat.add_zero, List.cons.injEq, true_and]
    refine List.map_congr_left fun i _ => ?_
    simp only [Function.comp]
    congr 1
    omega

@[simp] theorem Memory.readBytes_length (m : Memory) (a n : Nat) : (m.readBytes a n).length = n := by
  simp [Memory.readBytes_eq]

/-- Reading back a block of bytes gives the bytes. -/
theorem Memory.readBytes_writeBytes {m : Memory} (h : m.wf) {a : Nat} {bs : List Byte} (ha : a + bs.length ≤ 2 ^ 32) :
    (m.writeBytes a bs).readBytes a bs.length = bs := by
  apply List.ext_getElem
  · simp
  · intro i h1 h2
    simp only [Memory.readBytes_eq, List.getElem_map, List.getElem_range]
    rw [Memory.read_writeBytes h ha]
    simp [h2]

/-! ## Byte order -/

@[simp] theorem littleBytes_length (n p : Nat) : (littleBytes n p).length = n := by
  induction n generalizing p with
  | zero => rfl
  | succ n ih => simp [littleBytes, ih]

@[simp] theorem bytesOf_length (e : Endian) (n p : Nat) : (bytesOf e n p).length = n := by
  cases e <;> simp [bytesOf]

/-- Byte i of a value is `p[8i+7 : 8i]` (20_memory.md R76). -/
theorem littleBytes_getElem (n p i : Nat) (h : i < (littleBytes n p).length) :
    (littleBytes n p)[i] = BitVec.ofNat 8 (p / 256 ^ i) := by
  induction n generalizing p i with
  | zero => simp at h
  | succ n ih =>
    cases i with
    | zero => simp [littleBytes]
    | succ i =>
      simp only [littleBytes, List.getElem_cons_succ]
      rw [ih, Nat.div_div_eq_div_mul, ← pow_succ']

theorem littleValue_littleBytes (n p : Nat) : littleValue (littleBytes n p) = p % 256 ^ n := by
  induction n generalizing p with
  | zero => simp [littleBytes, littleValue, Nat.mod_one]
  | succ n ih =>
    rw [littleBytes, littleValue, ih, BitVec.toNat_ofNat, show (2 : Nat) ^ 8 = 256 from rfl, pow_succ' 256 n, Nat.mod_mul]

/-- The value of the bytes of a value is that value, in either byte order. -/
theorem valueOf_bytesOf (e : Endian) (n p : Nat) : valueOf e (bytesOf e n p) = p % 256 ^ n := by
  cases e <;> simp [valueOf, bytesOf, littleValue_littleBytes]

/-! ## MemRead and MemWrite -/

/-- An aligned access never crosses the top of the address space (20_memory.md R80). -/
theorem aligned_fits {a : Word} {w : Width} (h : aligned a w = true) : a.toNat + w.bytes ≤ 2 ^ 32 := by
  have ha : a.toNat < 4294967296 := a.isLt
  have hm : a.toNat % w.bytes = 0 := of_decide_eq_true h
  cases w <;> simp only [Width.bytes] at hm ⊢ <;> omega

/-- MemRead answers exactly on aligned addresses, with the value of the bytes there (R73, R74). -/
theorem memRead_eq_some {e : Endian} {m : Memory} {a : Word} {w : Width} {v : Nat} :
    memRead e m a w = some v ↔ aligned a w = true ∧ v = valueOf e (m.readBytes a.toNat w.bytes) := by
  by_cases h : aligned a w = true <;> simp [memRead, h, eq_comm]

/-- A byte read always answers (R73: a byte access is always aligned). -/
theorem memRead_byte (e : Endian) (m : Memory) (a : Word) : memRead e m a .byte = some (m.read a.toNat).toNat := by
  cases e <;> simp [memRead, aligned, Width.bytes, Memory.readBytes, valueOf, littleValue, Nat.mod_one]

theorem memWrite_eq_none {e : Endian} {m : Memory} {a : Word} {w : Width} {v : Int} :
    memWrite e m a w v = none ↔ aligned a w = false := by
  by_cases h : aligned a w = true <;> simp [memWrite, h]

/-- MemWrite answers exactly on aligned addresses, with the low 8n bits of the value stored in byte order (R73, R76). -/
theorem memWrite_eq_some {e : Endian} {m m' : Memory} {a : Word} {w : Width} {v : Int} :
    memWrite e m a w v = some m' ↔
      aligned a w = true ∧ m' = m.writeBytes a.toNat (bytesOf e w.bytes (v % 2 ^ (8 * w.bytes)).toNat) := by
  by_cases h : aligned a w = true <;> simp [memWrite, h, eq_comm]

/-- All a MemWrite does: MEM_INIT stays, the canonical form stays, and every byte reads as stored or as before. -/
theorem memWrite_spec {e : Endian} {m m' : Memory} {a : Word} {w : Width} {v : Int} (hm : m.wf)
    (h : memWrite e m a w v = some m') :
    m'.init = m.init ∧ m'.wf ∧
      ∀ b, m'.read b =
        if a.toNat ≤ b then ((bytesOf e w.bytes (v % 2 ^ (8 * w.bytes)).toNat)[b - a.toNat]?).getD (m.read b)
        else m.read b := by
  obtain ⟨ha, rfl⟩ := memWrite_eq_some.mp h
  have hf := aligned_fits ha
  have hl : a.toNat + (bytesOf e w.bytes (v % 2 ^ (8 * w.bytes)).toNat).length ≤ 2 ^ 32 := by simpa using hf
  exact ⟨by simp, Memory.writeBytes_wf hm hl, fun b => Memory.read_writeBytes hm hl b⟩

end Sys2Proof.Machine
end

