-- ==== Sys2Proof/Laws/Ops.lean ====
section
/-! SUPPORT. What each shared operation of the executor can do, said once, and from it what executing any instruction can do:
one of the shapes of `Effect`. Proofs about all instructions cite `exec_effect` and never unfold a meaning. -/

namespace Sys2Proof.Machine

/-! ## The ranges are those of the syntax -/

theorem legalSigned16_eq (v : Int) : legalSigned16 v = isSigned16 v := by simp [legalSigned16, isSigned16]

theorem legalUnsigned16_eq (v : Int) : legalUnsigned16 v = isUnsigned16 v := by simp [legalUnsigned16, isUnsigned16]

theorem legalShift_eq (v : Int) : legalShift v = isUnsigned5 v := by simp [legalShift, isUnsigned5]

/-! ## The shared operations -/

theorem raise_eq (s : State) (k : FaultKind) (a : Word) : raise s k a = .next (takeFault s k s.instrAddress a) := rfl

theorem withLegal_true (s : State) (r : Result) : withLegal true s r = r := rfl

theorem withLegal_false (s : State) (r : Result) :
    withLegal false s r = .next (takeFault s .invalidImmediate s.instrAddress 0) := rfl

theorem fitsSigned32_iff (v : Int) : fitsSigned32 v = true ↔ -2147483648 ≤ v ∧ v ≤ 2147483647 := by
  simp [fitsSigned32]

theorem writeSigned_of_fits {s : State} {d : RegNum} {v : Int} (h : fitsSigned32 v = true) :
    writeSigned s d v = .next (s.setReg d (uint32 v)) := by
  simp [writeSigned, h]

theorem writeSigned_of_overflow {s : State} {d : RegNum} {v : Int} (h : fitsSigned32 v = false) :
    writeSigned s d v = .next (takeFault s .arithmeticOverflow s.instrAddress 0) := by
  simp [writeSigned, h, raise_eq]

/-- A byte load with a legal offset always completes (43_memory_access.md R176, R177). -/
theorem load_byte {s : State} {ext : Nat → Word} {rt base : RegNum} {offset : Int} (h : legalSigned16 offset = true) :
    load s .byte ext rt offset base =
      .next (s.setReg rt (ext (s.mem.read (effectiveAddress s base offset).toNat).toNat)) := by
  simp [load, h, withLegal_true, memRead_byte]

theorem load_of_illegal {s : State} {w : Width} {ext : Nat → Word} {rt base : RegNum} {offset : Int}
    (h : legalSigned16 offset = false) :
    load s w ext rt offset base = .next (takeFault s .invalidImmediate s.instrAddress 0) := by
  simp [load, h, withLegal_false]

theorem store_of_illegal {s : State} {w : Width} {rt base : RegNum} {offset : Int} (h : legalSigned16 offset = false) :
    store s w rt offset base = .next (takeFault s .invalidImmediate s.instrAddress 0) := by
  simp [store, h, withLegal_false]

theorem store_of_misaligned {s : State} {w : Width} {rt base : RegNum} {offset : Int} (h : legalSigned16 offset = true)
    (ha : aligned (effectiveAddress s base offset) w = false) :
    store s w rt offset base =
      .next (takeFault s .memoryAlignmentError s.instrAddress (effectiveAddress s base offset)) := by
  simp [store, h, withLegal_true, memWrite, ha, raise_eq]

theorem store_of_aligned {s : State} {w : Width} {rt base : RegNum} {offset : Int} (h : legalSigned16 offset = true)
    (ha : aligned (effectiveAddress s base offset) w = true) :
    ∃ m, memWrite s.endian s.mem (effectiveAddress s base offset) w ((s.getReg rt).toNat : Int) = some m ∧
      store s w rt offset base = .next { s with mem := m } := by
  refine ⟨_, memWrite_eq_some.mpr ⟨ha, rfl⟩, ?_⟩
  simp [store, h, withLegal_true, memWrite, ha]

/-! ## What executing an instruction can do -/

/-- The shapes of an executed instruction's next state. -/
inductive Effect (i : Instr) (s : State) : State → Prop where
  /-- a general register is written -/
  | register (dest : RegNum) (v : Word) (wf : i.wf = true) (flow : controlFlow i = false) (mem : storeOf i = none) :
      Effect i s (s.setReg dest v)
  /-- hi and lo are written (40_arithmetic.md R144) -/
  | product (rs rt : RegNum) (is : i = .mult rs rt) : Effect i s (writeProduct s (s.getSigned rs * s.getSigned rt))
  /-- bytes are stored -/
  | stored (w : Width) (rt base : RegNum) (offset : Int) (m : Memory) (wf : i.wf = true)
      (is : storeOf i = some (w, rt, offset, base))
      (wrote : memWrite s.endian s.mem (effectiveAddress s base offset) w ((s.getReg rt).toNat : Int) = some m) :
      Effect i s { s with mem := m }
  /-- a transfer that is not taken -/
  | fallsThrough (flow : controlFlow i = true) : Effect i s s
  /-- a transfer without a link -/
  | jumps (target : Word) (flow : controlFlow i = true) : Effect i s (s.jumpTo target)
  /-- a transfer with a link -/
  | links (target : Word) (flow : controlFlow i = true) : Effect i s (s.linkTo target)
  /-- InvalidImmediate (30_encoding.md R102) -/
  | badImmediate (illegal : i.wf = false) : Effect i s (takeFault s .invalidImmediate s.instrAddress 0)
  /-- ArithmeticOverflow (60_exceptions.md R227) -/
  | overflow (v : Int) (wf : i.wf = true) (is : exactResult s i = some v) (out : fitsSigned32 v = false) :
      Effect i s (takeFault s .arithmeticOverflow s.instrAddress 0)
  /-- MemoryAlignmentError (60_exceptions.md R229) -/
  | misaligned (w : Width) (rt base : RegNum) (offset : Int) (wf : i.wf = true)
      (is : storeOf i = some (w, rt, offset, base)) (bad : aligned (effectiveAddress s base offset) w = false) :
      Effect i s (takeFault s .memoryAlignmentError s.instrAddress (effectiveAddress s base offset))

theorem effect_writeSigned {i : Instr} {s : State} {d : RegNum} {v : Int} (wf : i.wf = true)
    (is : exactResult s i = some v) (flow : controlFlow i = false) (mem : storeOf i = none) :
    ∃ t, writeSigned s d v = .next t ∧ Effect i s t := by
  cases h : fitsSigned32 v
  · exact ⟨_, writeSigned_of_overflow h, .overflow v wf is h⟩
  · exact ⟨_, writeSigned_of_fits h, .register d _ wf flow mem⟩

theorem effect_withLegal {i : Instr} {s : State} {legal : Bool} {r : Result} (wf : legal = i.wf)
    (rest : i.wf = true → ∃ t, r = .next t ∧ Effect i s t) : ∃ t, withLegal legal s r = .next t ∧ Effect i s t := by
  subst wf
  cases h : i.wf
  · exact ⟨_, withLegal_false .., .badImmediate h⟩
  · exact rest h

theorem effect_load {i : Instr} {s : State} {ext : Nat → Word} {rt base : RegNum} {offset : Int}
    (wf : legalSigned16 offset = i.wf) (flow : controlFlow i = false) (mem : storeOf i = none) :
    ∃ t, load s .byte ext rt offset base = .next t ∧ Effect i s t := by
  cases h : legalSigned16 offset
  · exact ⟨_, load_of_illegal h, .badImmediate (by rw [← wf, h])⟩
  · exact ⟨_, load_byte h, .register rt _ (by rw [← wf, h]) flow mem⟩

theorem effect_store {i : Instr} {s : State} {w : Width} {rt base : RegNum} {offset : Int}
    (wf : legalSigned16 offset = i.wf) (is : storeOf i = some (w, rt, offset, base)) :
    ∃ t, store s w rt offset base = .next t ∧ Effect i s t := by
  cases h : legalSigned16 offset
  · exact ⟨_, store_of_illegal h, .badImmediate (by rw [← wf, h])⟩
  · cases ha : aligned (effectiveAddress s base offset) w
    · exact ⟨_, store_of_misaligned h ha, .misaligned w rt base offset (by rw [← wf, h]) is ha⟩
    · obtain ⟨m, hm, ht⟩ := store_of_aligned (rt := rt) h ha
      exact ⟨_, ht, .stored w rt base offset m (by rw [← wf, h]) is hm⟩

theorem effect_branch {i : Instr} {s : State} {c : Prop} [Decidable c] {target : Word} (flow : controlFlow i = true) :
    ∃ t, (.next (if c then s.jumpTo target else s) : Result) = .next t ∧ Effect i s t := by
  by_cases h : c
  · exact ⟨_, by rw [if_pos h], .jumps target flow⟩
  · exact ⟨_, by rw [if_neg h], .fallsThrough flow⟩

/-- Every instruction answers a next state of one of the shapes (10_state.md R48, R51). -/
theorem exec_effect (i : Instr) (s : State) : ∃ t, exec i s = .next t ∧ Effect i s t := by
  cases i with
  | add rd rs rt => exact effect_writeSigned rfl rfl rfl rfl
  | addu rd rs rt => exact ⟨_, rfl, .register rd _ rfl rfl rfl⟩
  | addi rt rs imm =>
    exact effect_withLegal (legalSigned16_eq imm) fun h => effect_writeSigned h rfl rfl rfl
  | sub rd rs rt => exact effect_writeSigned rfl rfl rfl rfl
  | mult rs rt => exact ⟨_, rfl, .product rs rt rfl⟩
  | sll rd rt sa => exact effect_withLegal (legalShift_eq sa) fun h => ⟨_, rfl, .register rd _ h rfl rfl⟩
  | srl rd rt sa => exact effect_withLegal (legalShift_eq sa) fun h => ⟨_, rfl, .register rd _ h rfl rfl⟩
  | srav rd rt rs => exact ⟨_, rfl, .register rd _ rfl rfl rfl⟩
  | slt rd rs rt => exact ⟨_, rfl, .register rd _ rfl rfl rfl⟩
  | lb rt offset base => exact effect_load (legalSigned16_eq offset) rfl rfl
  | lbu rt offset base => exact effect_load (legalSigned16_eq offset) rfl rfl
  | sh rt offset base => exact effect_store (legalSigned16_eq offset) rfl
  | sw rt offset base => exact effect_store (legalSigned16_eq offset) rfl
  | lui rt imm => exact effect_withLegal (legalUnsigned16_eq imm) fun h => ⟨_, rfl, .register rt _ h rfl rfl⟩
  | j target => exact ⟨_, rfl, .jumps target rfl⟩
  | jal target => exact ⟨_, rfl, .links target rfl⟩
  | bgez rs target => exact effect_branch rfl
  | bgezal rs target =>
    by_cases h : s.getSigned rs ≥ 0
    · exact ⟨_, by simp only [exec, execBgezal]; rw [if_pos h], .links target rfl⟩
    · exact ⟨_, by simp only [exec, execBgezal]; rw [if_neg h], .fallsThrough rfl⟩
  | blez rs target => exact effect_branch rfl
  | clz rd rs => exact ⟨_, rfl, .register rd _ rfl rfl rfl⟩
  | clo rd rs => exact ⟨_, rfl, .register rd _ rfl rfl rfl⟩

/-- The shape of a given next state. -/
theorem effect_of_exec {i : Instr} {s t : State} (h : exec i s = .next t) : Effect i s t := by
  obtain ⟨u, hu, e⟩ := exec_effect i s
  rw [h] at hu
  cases hu
  exact e

/-- A step from a Running state, said once (10_state.md R50). -/
theorem step_running {s t : State} (hs : s.status = .running) (h : step s = .next t) :
    (s.pc = s.progEnd ∧ t = { s with status := .halted }) ∨
    (∃ k, s.pc ≠ s.progEnd ∧ s.fetch s.pc = .error k ∧ t = fetchFault s k) ∨
    (∃ i, s.pc ≠ s.progEnd ∧ s.fetch s.pc = .ok i ∧ exec i s.advance = .next t) := by
  unfold step at h
  rw [hs] at h
  simp only at h
  split at h
  · rename_i hp
    cases h
    exact .inl ⟨hp, rfl⟩
  · rename_i hp
    split at h
    · rename_i k hk
      cases h
      exact .inr (.inl ⟨k, hp, hk, rfl⟩)
    · rename_i i hi
      exact .inr (.inr ⟨i, hp, hi, h⟩)

/-- The three things a Running state does (10_state.md R50). -/
theorem step_of_progEnd {s : State} (hs : s.status = .running) (hp : s.pc = s.progEnd) :
    step s = .next { s with status := .halted } := by
  unfold step
  rw [hs]
  exact if_pos hp

theorem step_of_fetch_error {s : State} {k : FaultKind} (hs : s.status = .running) (hp : s.pc ≠ s.progEnd)
    (hf : s.fetch s.pc = .error k) : step s = .next (fetchFault s k) := by
  unfold step
  rw [hs]
  simp only
  rw [if_neg hp, hf]

theorem step_of_fetch_ok {s : State} {i : Instr} (hs : s.status = .running) (hp : s.pc ≠ s.progEnd)
    (hf : s.fetch s.pc = .ok i) : step s = exec i s.advance := by
  unfold step
  rw [hs]
  simp only
  rw [if_neg hp, hf]

/-- A step that answers started in a Running state (10_state.md R41). -/
theorem running_of_step {s t : State} (h : step s = .next t) : s.status = .running := by
  unfold step at h
  split at h <;> first | assumption | cases h

/-- The only faults of a fetch (60_exceptions.md R230, R231). -/
theorem fetch_error_kind {s : State} {A : Word} {k : FaultKind} (h : s.fetch A = .error k) :
    k = .instructionFetchError ∨ k = .reservedInstruction := by
  unfold State.fetch at h
  repeat' split at h
  all_goals first | (cases h; simp) | cases h

end Sys2Proof.Machine
end

