-- ==== Sys2Proof/Laws/PerInstr.lean ====
section
/-! SUPPORT. Statements about every instruction as syntax, one lemma for each constructor. -/

namespace Sys2Proof.Laws

/-- The word a term is given carries the fixed bits of its own row of the opcode map (30_encoding.md R106, R108): the encoder
drops and flips no bit of an opcode. -/
def EncodesToItsRow.Statement (i : Instr) : Prop := ∀ A, i.mnemonic.matchesWord (i.word A) = true

theorem EncodesToItsRow.add (rd : RegNum) (rs : RegNum) (rt : RegNum) : EncodesToItsRow.Statement (.add rd rs rt) := fun A =>
  matchesWord_of_and (show Instr.word A (.add rd rs rt) &&& rType 0x3f 0x0 0x0 0x0 0x1f 0x3f = Mnemonic.pattern .add by simp [Instr.word, rType_and]; rfl)

theorem EncodesToItsRow.addu (rd : RegNum) (rs : RegNum) (rt : RegNum) : EncodesToItsRow.Statement (.addu rd rs rt) := fun A =>
  matchesWord_of_and (show Instr.word A (.addu rd rs rt) &&& rType 0x3f 0x0 0x0 0x0 0x1f 0x3f = Mnemonic.pattern .addu by simp [Instr.word, rType_and]; rfl)

theorem EncodesToItsRow.addi (rt : RegNum) (rs : RegNum) (imm : Int) : EncodesToItsRow.Statement (.addi rt rs imm) := fun A =>
  matchesWord_of_and (show Instr.word A (.addi rt rs imm) &&& iType 0x3f 0x0 0x0 0x0 = Mnemonic.pattern .addi by simp [Instr.word, iType_and]; rfl)

theorem EncodesToItsRow.sub (rd : RegNum) (rs : RegNum) (rt : RegNum) : EncodesToItsRow.Statement (.sub rd rs rt) := fun A =>
  matchesWord_of_and (show Instr.word A (.sub rd rs rt) &&& rType 0x3f 0x0 0x0 0x0 0x1f 0x3f = Mnemonic.pattern .sub by simp [Instr.word, rType_and]; rfl)

theorem EncodesToItsRow.mult (rs : RegNum) (rt : RegNum) : EncodesToItsRow.Statement (.mult rs rt) := fun A =>
  matchesWord_of_and (show Instr.word A (.mult rs rt) &&& rType 0x3f 0x0 0x0 0x1f 0x1f 0x3f = Mnemonic.pattern .mult by simp [Instr.word, rType_and]; rfl)

theorem EncodesToItsRow.sll (rd : RegNum) (rt : RegNum) (sa : Int) : EncodesToItsRow.Statement (.sll rd rt sa) := fun A =>
  matchesWord_of_and (show Instr.word A (.sll rd rt sa) &&& rType 0x3f 0x1f 0x0 0x0 0x0 0x3f = Mnemonic.pattern .sll by simp [Instr.word, rType_and]; rfl)

theorem EncodesToItsRow.srl (rd : RegNum) (rt : RegNum) (sa : Int) : EncodesToItsRow.Statement (.srl rd rt sa) := fun A =>
  matchesWord_of_and (show Instr.word A (.srl rd rt sa) &&& rType 0x3f 0x1f 0x0 0x0 0x0 0x3f = Mnemonic.pattern .srl by simp [Instr.word, rType_and]; rfl)

theorem EncodesToItsRow.srav (rd : RegNum) (rt : RegNum) (rs : RegNum) : EncodesToItsRow.Statement (.srav rd rt rs) := fun A =>
  matchesWord_of_and (show Instr.word A (.srav rd rt rs) &&& rType 0x3f 0x0 0x0 0x0 0x1f 0x3f = Mnemonic.pattern .srav by simp [Instr.word, rType_and]; rfl)

theorem EncodesToItsRow.slt (rd : RegNum) (rs : RegNum) (rt : RegNum) : EncodesToItsRow.Statement (.slt rd rs rt) := fun A =>
  matchesWord_of_and (show Instr.word A (.slt rd rs rt) &&& rType 0x3f 0x0 0x0 0x0 0x1f 0x3f = Mnemonic.pattern .slt by simp [Instr.word, rType_and]; rfl)

theorem EncodesToItsRow.lb (rt : RegNum) (offset : Int) (base : RegNum) : EncodesToItsRow.Statement (.lb rt offset base) := fun A =>
  matchesWord_of_and (show Instr.word A (.lb rt offset base) &&& iType 0x3f 0x0 0x0 0x0 = Mnemonic.pattern .lb by simp [Instr.word, iType_and]; rfl)

theorem EncodesToItsRow.lbu (rt : RegNum) (offset : Int) (base : RegNum) : EncodesToItsRow.Statement (.lbu rt offset base) := fun A =>
  matchesWord_of_and (show Instr.word A (.lbu rt offset base) &&& iType 0x3f 0x0 0x0 0x0 = Mnemonic.pattern .lbu by simp [Instr.word, iType_and]; rfl)

theorem EncodesToItsRow.sh (rt : RegNum) (offset : Int) (base : RegNum) : EncodesToItsRow.Statement (.sh rt offset base) := fun A =>
  matchesWord_of_and (show Instr.word A (.sh rt offset base) &&& iType 0x3f 0x0 0x0 0x0 = Mnemonic.pattern .sh by simp [Instr.word, iType_and]; rfl)

theorem EncodesToItsRow.sw (rt : RegNum) (offset : Int) (base : RegNum) : EncodesToItsRow.Statement (.sw rt offset base) := fun A =>
  matchesWord_of_and (show Instr.word A (.sw rt offset base) &&& iType 0x3f 0x0 0x0 0x0 = Mnemonic.pattern .sw by simp [Instr.word, iType_and]; rfl)

theorem EncodesToItsRow.lui (rt : RegNum) (imm : Int) : EncodesToItsRow.Statement (.lui rt imm) := fun A =>
  matchesWord_of_and (show Instr.word A (.lui rt imm) &&& iType 0x3f 0x1f 0x0 0x0 = Mnemonic.pattern .lui by simp [Instr.word, iType_and]; rfl)

theorem EncodesToItsRow.j (target : Word) : EncodesToItsRow.Statement (.j target) := fun A =>
  matchesWord_of_and (show Instr.word A (.j target) &&& jType 0x3f 0x0 = Mnemonic.pattern .j by simp [Instr.word, jType_and]; rfl)

theorem EncodesToItsRow.jal (target : Word) : EncodesToItsRow.Statement (.jal target) := fun A =>
  matchesWord_of_and (show Instr.word A (.jal target) &&& jType 0x3f 0x0 = Mnemonic.pattern .jal by simp [Instr.word, jType_and]; rfl)

theorem EncodesToItsRow.bgez (rs : RegNum) (target : Word) : EncodesToItsRow.Statement (.bgez rs target) := fun A =>
  matchesWord_of_and (show Instr.word A (.bgez rs target) &&& iType 0x3f 0x0 0x1f 0x0 = Mnemonic.pattern .bgez by simp [Instr.word, iType_and]; rfl)

theorem EncodesToItsRow.bgezal (rs : RegNum) (target : Word) : EncodesToItsRow.Statement (.bgezal rs target) := fun A =>
  matchesWord_of_and (show Instr.word A (.bgezal rs target) &&& iType 0x3f 0x0 0x1f 0x0 = Mnemonic.pattern .bgezal by simp [Instr.word, iType_and]; rfl)

theorem EncodesToItsRow.blez (rs : RegNum) (target : Word) : EncodesToItsRow.Statement (.blez rs target) := fun A =>
  matchesWord_of_and (show Instr.word A (.blez rs target) &&& iType 0x3f 0x0 0x1f 0x0 = Mnemonic.pattern .blez by simp [Instr.word, iType_and]; rfl)

theorem EncodesToItsRow.clz (rd : RegNum) (rs : RegNum) : EncodesToItsRow.Statement (.clz rd rs) := fun A =>
  matchesWord_of_and (show Instr.word A (.clz rd rs) &&& rType 0x3f 0x0 0x0 0x0 0x1f 0x3f = Mnemonic.pattern .clz by simp [Instr.word, rType_and]; rfl)

theorem EncodesToItsRow.clo (rd : RegNum) (rs : RegNum) : EncodesToItsRow.Statement (.clo rd rs) := fun A =>
  matchesWord_of_and (show Instr.word A (.clo rd rs) &&& rType 0x3f 0x0 0x0 0x0 0x1f 0x3f = Mnemonic.pattern .clo by simp [Instr.word, rType_and]; rfl)

end Sys2Proof.Laws
end

