-- ==== Sys2Proof/Tests/Slice0.lean ====
section
/-! SUPPORT. The model's own tests. Every expected result is taken from the spec: a vector of 95_test_vectors.md (its id is in the
comment) or a corner case of the instruction's rule. The `witness_` theorems show concrete states and operands that meet the
hypotheses of the statements in Certificates/Slice0/Obligations.lean, one for each clause, at the ends of its range. -/

namespace Sys2Proof.Tests

open Sys2Proof.Machine

/-- The reset state with some registers set and the pc of the vectors' column "pc in" (95_test_vectors.md 2.5). -/
def regsAt (pc : Word) (regs : List (RegNum × Word)) : State :=
  (regs.foldl (fun s r => s.setReg r.1 r.2) State.reset).jumpTo pc

def regs (l : List (RegNum × Word)) : State := regsAt 0x00400004 l

def bigEndian (s : State) : State := { s with endian := .big }

/-- The state an instruction leaves. -/
def after (i : Instr) (s : State) : State :=
  match exec i s with
  | .next t => t
  | .fault _ => State.reset
  | .refused _ => State.reset

def faultOf (s : State) : Option (Nat × Word) :=
  match s.status with
  | .faulted rec => some (rec.kind.code, rec.addr)
  | .running => none
  | .halted => none

/-- The reset state with a program of terms at the reset PROG_BASE. -/
def withProgram (l : List Instr) : State := { State.reset with prog := .terms l }

/-! ## WellFormed: an ill-formed term for each check -/

theorem test_wf_addi_low : Instr.wf (.addi 9 8 (-32769)) = false := by decide
theorem test_wf_addi_high : Instr.wf (.addi 9 8 32768) = false := by decide
theorem test_wf_shift_32 : Instr.wf (.sll 9 8 32) = false ∧ Instr.wf (.srl 9 8 (-1)) = false := by decide
theorem test_wf_lui : Instr.wf (.lui 8 65536) = false ∧ Instr.wf (.lui 8 (-1)) = false := by decide
theorem test_wf_offset : Instr.wf (.lb 8 32768 9) = false ∧ Instr.wf (.lbu 8 (-32769) 9) = false ∧
    Instr.wf (.sh 8 40000 9) = false ∧ Instr.wf (.sw 8 32768 9) = false := by decide
theorem test_encodable_jump_misaligned : Instr.encodableAt 0x00400004 (.j 0x0040000A) = false := by decide
theorem test_encodable_jump_region : Instr.encodableAt 0x00400004 (.jal 0x10000000) = false := by decide
theorem test_encodable_branch_misaligned : Instr.encodableAt 0x00400000 (.bgez 8 0x00400006) = false := by decide
theorem test_encodable_branch_far : Instr.encodableAt 0x00400000 (.blez 8 0x00420004) = false ∧
    Instr.encodableAt 0x00400000 (.bgezal 8 0x00420000) = true := by decide

/-! ## Decode: words written out bit by bit from the encodings of spec/opcode_table.json -/

theorem test_decode_add : decode 0x00400008 0b00000001001010000100100000100000 = .ok (.add 9 9 8) := by rfl -- P3
theorem test_decode_addu : decode 0 0b00000001000010000101000000100001 = .ok (.addu 10 8 8) := by rfl -- P5
theorem test_decode_addi : decode 0 0b00100001000010001010101111001101 = .ok (.addi 8 8 (-21555)) := by rfl -- P2
theorem test_decode_sub : decode 0 0b00000001000010010101000000100010 = .ok (.sub 10 8 9) := by rfl
theorem test_decode_mult : decode 0 0b00000001000010000000000000011000 = .ok (.mult 8 8) := by rfl -- P1
theorem test_decode_sll : decode 0 0b00000000000010010101100010000000 = .ok (.sll 11 9 2) := by rfl -- P3
theorem test_decode_srl : decode 0 0x00084E42 = .ok (.srl 9 8 25) := by rfl -- G6
theorem test_decode_srav : decode 0 0b00000001010010000101100000000111 = .ok (.srav 11 8 10) := by rfl -- P1
theorem test_decode_slt : decode 0 0b00000001000010010111000000101010 = .ok (.slt 14 8 9) := by rfl -- P1
theorem test_decode_lb : decode 0 0b10000001001010100000000000000101 = .ok (.lb 10 5 9) := by rfl -- P2
theorem test_decode_lbu : decode 0 0b10010001001010110000000000000101 = .ok (.lbu 11 5 9) := by rfl -- P2
theorem test_decode_sh : decode 0 0b10100101001010100000000000000110 = .ok (.sh 10 6 9) := by rfl -- P2
theorem test_decode_sw : decode 0 0b10101101001010000000000000000100 = .ok (.sw 8 4 9) := by rfl -- P2
theorem test_decode_lui : decode 0 0b00111100000010010001000000000001 = .ok (.lui 9 0x1001) := by rfl -- P2
theorem test_decode_j : decode 0x00400028 0b00001000000100000000000000000111 = .ok (.j 0x0040001C) := by rfl -- P3
theorem test_decode_jal : decode 0x00400018 0b00001100000100000000000000001001 = .ok (.jal 0x00400024) := by rfl -- P3
theorem test_decode_bgez : decode 0x00400014 0b00000101010000011111111111111100 = .ok (.bgez 10 0x00400008) := by rfl -- P3
theorem test_decode_bgezal : decode 0x00400004 0b00000101000100010000000000000010 = .ok (.bgezal 8 0x00400010) := by rfl -- P4
theorem test_decode_blez : decode 0x0040001C 0b00011001000000000000000000000011 = .ok (.blez 8 0x0040002C) := by rfl -- P3
theorem test_decode_clz : decode 0 0b01110001001011000110000000100000 = .ok (.clz 12 9) := by rfl -- P1
theorem test_decode_clo : decode 0 0b01110001011011010110100000100001 = .ok (.clo 13 11) := by rfl -- P1
theorem test_decode_nop : decode 0 0 = .ok (.sll 0 0 0) := by rfl -- G4
theorem test_decode_reserved : decode 0 1 = .error .noRow ∧ decode 0 0x00284E02 = .error .noRow := ⟨rfl, rfl⟩ -- G5, G7
theorem test_decode_clz_rt_not_rd : decode 0 0x712B6020 = .error .countRtNotRd := by rfl -- G8
theorem test_encode_p1 : encode 0x00400010 (.clz 12 9) = some 0x712C6020 ∧
    encode 0x0040001C (.slt 14 8 9) = some 0x0109702A := by decide
theorem test_encode_p3 : encode 0x00400014 (.bgez 10 0x00400008) = some 0x0541FFFC ∧
    encode 0x00400018 (.jal 0x00400024) = some 0x0C100009 := by decide

/-! ## Instructions -/

theorem test_add_overflow_zero_dest : -- A4
    faultOf (after (.add 0 8 9) (regs [(8, 0x7FFFFFFF), (9, 1)])) = some (1, 0) := by decide
theorem test_add_same_source_and_dest : -- A6
    (after (.add 8 8 8) (regs [(8, 0x3FFFFFFF)])).getReg 8 = 0x7FFFFFFE := by decide
theorem test_addu_wraps : -- S2
    (after (.addu 10 8 9) (regs [(8, 0x7FFFFFFF), (9, 0x7FFFFFFF)])).getReg 10 = 0xFFFFFFFE := by decide
theorem test_addu_zero_dest : (after (.addu 0 8 9) (regs [(8, 1), (9, 1)])).getReg 0 = 0 := by decide -- A8
theorem test_addi_immediate_before_overflow : -- A17
    faultOf (after (.addi 9 8 60000) (regs [(8, 0x7FFFFFFF)])) = some (2, 0) := by decide
theorem test_addi_lowest : (after (.addi 9 8 (-32768)) (regs [])).getReg 9 = 0xFFFF8000 := by decide -- A12
theorem test_sub_order : (after (.sub 10 8 9) (regs [(8, 5), (9, 7)])).getReg 10 = 0xFFFFFFFE := by decide -- A18
theorem test_sub_overflow : faultOf (after (.sub 10 8 9) (regs [(9, 0x80000000)])) = some (1, 0) := by decide -- A19
theorem test_mult_signed : -- A27
    (after (.mult 8 9) (regs [(8, 0x80000000), (9, 1)])).hi = 0xFFFFFFFF ∧
    (after (.mult 8 9) (regs [(8, 0x80000000), (9, 1)])).lo = 0x80000000 := by decide
theorem test_mult_max : -- A23
    (after (.mult 8 9) (regs [(8, 0x7FFFFFFF), (9, 0x7FFFFFFF)])).hi = 0x3FFFFFFF ∧
    (after (.mult 8 9) (regs [(8, 0x7FFFFFFF), (9, 0x7FFFFFFF)])).lo = 1 := by decide
theorem test_sll_loses_high_bits : (after (.sll 9 8 4) (regs [(8, 0x12345678)])).getReg 9 = 0x23456780 := by decide -- H1
theorem test_sll_negative_amount : faultOf (after (.sll 9 8 (-1)) (regs [(8, 1)])) = some (2, 0) := by decide -- H4
theorem test_srl_fills_zero : (after (.srl 9 8 24) (regs [(8, 0xFFFFFFFF)])).getReg 9 = 0x000000FF := by decide -- E5
theorem test_srl_32 : faultOf (after (.srl 9 8 32) (regs [(8, 0x80000000)])) = some (2, 0) := by decide -- H6
theorem test_srav_152 : -- E6
    (after (.srav 10 8 9) (regs [(8, 0x80000000), (9, 152)])).getReg 10 = 0xFFFFFF80 := by decide
theorem test_srav_32 : -- H8
    (after (.srav 10 8 9) (regs [(8, 0x80000000), (9, 32)])).getReg 10 = 0x80000000 := by decide
theorem test_slt_signed : (after (.slt 10 8 9) (regs [(8, 0xFFFFFFFF), (9, 1)])).getReg 10 = 1 := by decide -- K1
theorem test_slt_operand_order : (after (.slt 10 8 9) (regs [(8, 1), (9, 0xFFFFFFFF)])).getReg 10 = 0 := by decide -- K2

/-- The memory of vectors M1 to M7. -/
def bytesM : State :=
  { regs [(9, 0x10010000)] with mem := ⟨⟨0, []⟩, [(0x10010000, 0x80), (0x10010001, 0x7F), (0x10010002, 0xFF)]⟩ }

theorem test_lb_base_is_dest : (after (.lb 9 0 9) bytesM).getReg 9 = 0xFFFFFF80 := by decide -- M6
theorem test_lb_unwritten : (after (.lb 8 3 9) bytesM).getReg 8 = 0 := by decide -- M5
theorem test_lbu_zero_extends : (after (.lbu 8 2 9) bytesM).getReg 8 = 0x000000FF := by decide -- M4
theorem test_lbu_bad_offset : faultOf (after (.lbu 8 32768 9) bytesM) = some (2, 0) := by decide -- M8
theorem test_sh_even_address : -- S3, corrected by 90_conflicts.md C2
    (after (.sh 8 0 9) (regs [(8, 0xABCD), (9, 0x10010006)])).mem.cells = [(0x10010006, 0xCD), (0x10010007, 0xAB)] := by decide
theorem test_sh_odd_address : -- S3
    faultOf (after (.sh 8 0 9) (regs [(8, 0xABCD), (9, 0x10010007)])) = some (3, 0x10010007) := by decide
theorem test_sw_wraps_to_top : -- M14
    (after (.sw 8 (-4) 9) (regs [(8, 0xCAFEF00D)])).mem.cells =
      [(0xFFFFFFFC, 0x0D), (0xFFFFFFFD, 0xF0), (0xFFFFFFFE, 0xFE), (0xFFFFFFFF, 0xCA)] := by decide
theorem test_sw_big_endian : -- M11
    (after (.sw 8 4 9) (bigEndian (regs [(8, 0x1234ABCD), (9, 0x10010000)]))).mem.cells =
      [(0x10010004, 0x12), (0x10010005, 0x34), (0x10010006, 0xAB), (0x10010007, 0xCD)] := by decide
theorem test_lui_high : (after (.lui 8 0xFFFF) (regs [])).getReg 8 = 0xFFFF0000 := by decide -- M20
theorem test_lui_minus_one : faultOf (after (.lui 8 (-1)) (regs [])) = some (2, 0) := by decide -- E7
theorem test_j : (after (.j 0x00400020) (regs [])).pc = 0x00400020 := by decide -- C1
theorem test_jal : -- C2
    (after (.jal 0x00400024) (regsAt 0x0040001C [])).pc = 0x00400024 ∧
    (after (.jal 0x00400024) (regsAt 0x0040001C [])).getReg 31 = 0x0040001C := by decide
theorem test_bgez_zero : (after (.bgez 8 0x00400100) (regs [])).pc = 0x00400100 := by decide -- C3
theorem test_bgez_negative : (after (.bgez 8 0x00400100) (regs [(8, 0x80000000)])).pc = 0x00400004 := by decide -- C6
theorem test_bgezal_not_taken : -- C7
    after (.bgezal 8 0x00400100) (regsAt 0x00400000 [(8, 0xFFFFFFFF), (31, 0x12345678)]) =
      regsAt 0x00400000 [(8, 0xFFFFFFFF), (31, 0x12345678)] := by decide
theorem test_bgezal_reads_old_ra : -- C8
    (after (.bgezal 31 0x00400100) (regsAt 0x00400010 [(31, 0x00400000)])).pc = 0x00400100 ∧
    (after (.bgezal 31 0x00400100) (regsAt 0x00400010 [(31, 0x00400000)])).getReg 31 = 0x00400010 := by decide
theorem test_blez_negative : (after (.blez 8 0x00400100) (regs [(8, 0x80000000)])).pc = 0x00400100 := by decide -- C11
theorem test_blez_positive : (after (.blez 8 0x00400100) (regs [(8, 1)])).pc = 0x00400004 := by decide -- C10
theorem test_clz_zero : (after (.clz 8 9) (regs [])).getReg 8 = 32 := by decide -- S5
theorem test_clz_80 : (after (.clz 8 9) (regs [(9, 0x80)])).getReg 8 = 24 := by decide -- B3
theorem test_clo_all_ones : (after (.clo 8 9) (regs [(9, 0xFFFFFFFF)])).getReg 8 = 32 := by decide -- S5
theorem test_clo_25 : (after (.clo 8 9) (regs [(9, 0xFFFFFF80)])).getReg 8 = 25 := by decide -- B6

/-! ## Fetch, step and fault entry -/

/-- The state a step leaves. -/
def stepped (s : State) : State :=
  match step s with
  | .next t => t
  | .fault _ => State.reset
  | .refused _ => State.reset

theorem test_step_fetches_word : -- P1, first word
    (stepped (State.reset.withFetchWord 32 0x3C088000)).getReg 8 = 0x80000000 ∧
    (stepped (State.reset.withFetchWord 32 0x3C088000)).pc = 0x00400004 := by decide
theorem test_step_reserved_word : -- G5
    (stepped (State.reset.withFetchWord 32 1)).status = .faulted ⟨.reservedInstruction, 0x00400000, 0x00400000⟩ := by decide
theorem test_step_fault_restores_pc : -- R233, with the operands of A1
    stepped ((withProgram [.add 10 8 9]).setReg 8 0x80000000 |>.setReg 9 0xFFFFFFFF) =
      { (withProgram [.add 10 8 9]).setReg 8 0x80000000 |>.setReg 9 0xFFFFFFFF with
        status := .faulted ⟨.arithmeticOverflow, 0x00400000, 0⟩ } := by decide
theorem test_step_wild_pc : -- P6
    (stepped ((withProgram [.addi 8 0 3, .j 0x0040000A]).jumpTo 0x0040000A)).status =
      .faulted ⟨.instructionFetchError, 0x0040000A, 0x0040000A⟩ := by decide
theorem test_step_halts_at_prog_end : -- R50
    (stepped ((withProgram [.sll 0 0 0]).jumpTo 0x00400004)).status = .halted := by decide
theorem test_table_word : decodeTableWord 32 0x0C100009 = some (.jal 0x00400024) := by decide
theorem test_set_zero : (State.reset.portSet (.gpr 0) 5).portGet (.gpr 0) .unsigned = 0 := by decide -- G1
theorem test_set_minus_one : -- G2
    (State.reset.portSet (.gpr 8) (-1)).portGet (.gpr 8) .unsigned = 0xFFFFFFFF ∧
    (State.reset.portSet (.gpr 8) (-1)).portGet (.gpr 8) .signed = -1 := by decide
theorem test_read_half_ports : -- M18
    memRead .little (after (.sw 8 4 9) (regs [(8, 0x1234ABCD), (9, 0x10010000)])).mem 0x10010004 .half = some 0xABCD ∧
    memRead .big (after (.sw 8 4 9) (bigEndian (regs [(8, 0x1234ABCD), (9, 0x10010000)]))).mem 0x10010006 .half =
      some 0xABCD := by decide
theorem test_assemble_pc_operand : assembleLine [] "add pc, $t0, $t1" = .error (.unknownRegister "pc") := by rfl -- G9
theorem test_assemble_nop : assembleLine [] "nop" = .error (.unknownMnemonic "nop") := by rfl -- G10
theorem test_load_unencodable : -- P6 with BINARY_LAYER = true
    assembleText [] ["addi $t0, $zero, 3", "j 0x0040000A"] = .ok [.addi 8 0 3, .j 0x0040000A] ∧
    encodeProgram 0x00400000 [.addi 8 0 3, .j 0x0040000A] = .error (.unencodable (.j 0x0040000A) 0x00400004) :=
  ⟨rfl, rfl⟩
theorem test_assemble_bad_address : assembleLine [] "j 0x100000000" = .error (.badAddress 0x100000000) := by rfl -- R232

/-! ## Witnesses of the statements' hypotheses -/

/-- BootGivesEveryPieceItsLaunchValue, BootMeetsTheInvariant: P2's first line, nothing set and no byte added, so that every
clause about an untouched register or byte applies. -/
theorem witness_boot_defaults : (⟨⟨0, []⟩, []⟩ : Memory).wf ∧
    ∃ s, boot .little ⟨0, []⟩ (Vector.replicate 32 7) 1 2 [] [] 0x00400000 false ["lui $t1, 0x1001"] [] = .ok s :=
  ⟨by decide, _, rfl⟩

/-- The same statements in the binary layer, with a label, a byte added twice and another after it, and each port register set,
`$t0` twice: every clause about a last set or a last byte has its case, and `$ra` stays untouched. -/
theorem witness_boot_sets : (⟨⟨0, []⟩, []⟩ : Memory).wf ∧
    ∃ s, boot .big ⟨0, []⟩ (Vector.replicate 32 0) 0 0 [(1, 0x10010000), (255, 0x10010000), (7, 0x10010001)]
      [("here", 0x00400000)] 0x00400000 true ["j here"]
      [(.gpr 8, 5), (.pc, 0x00400000), (.gpr 8, -1), (.hi, 1), (.lo, 2), (.gpr 0, 3)] = .ok s :=
  ⟨by decide, _, rfl⟩

/-- A setup over the reset state. -/
def freshSetup : Setup := Setup.construct .little ⟨0, []⟩ (Vector.replicate 32 0) 0 0

/-- The host's ports before the run (10_state.md R45, R46): a GPR set and read signed, pc's default PROG_BASE (R55), a set pc. -/
theorem test_ports_before_the_run : (freshSetup.set (.gpr 8) (2 ^ 31)).get (.gpr 8) .signed = -2 ^ 31 ∧
    (∃ u, freshSetup.loadTerms 0x00001000 false [] = .ok u ∧ u.get .pc .unsigned = 0x1000 ∧
      (u.set .pc 0x1004).get .pc .unsigned = 0x1004) :=
  ⟨by decide, _, rfl, by decide, by decide⟩

/-- The memory ports before the run: S4's word, its byte at offset 2, and a misaligned write. -/
theorem test_memory_before_the_run : (∃ u, freshSetup.write 0x10010004 0x1234ABCD .word = some u ∧
      u.read 0x10010006 .byte = some 0x34) ∧ freshSetup.write 0x10010006 1 .word = none := ⟨⟨_, rfl, by rfl⟩, rfl⟩

/-- TheLastAddByteWins, each clause at the ends of its ranges. -/
theorem witness_add_byte : freshSetup.machine.mem.wf ∧ ((-1 : Int) < 0 ∧ (255 : Int) < 256) ∧ ((2 : Int) ^ 32 ≤ 2 ^ 32) ∧
    (∃ u, freshSetup.addByte 255 (2 ^ 32 - 1) = .ok u) ∧ ∃ u, freshSetup.addByte 0 0 = .ok u :=
  ⟨by decide, by decide, by decide, ⟨_, rfl⟩, ⟨_, rfl⟩⟩

/-- LabelsAreBoundOnce: a bound name and a free one. -/
theorem witness_labels : (∃ u, freshSetup.addLabel "here" (2 ^ 32 - 1) = .ok u ∧
      ∃ b, getLabel u.machine.labels "here" = .ok b) ∧
    getLabel freshSetup.machine.labels "here" = .error (.unresolvedLabel "here") :=
  ⟨⟨_, rfl, _, rfl⟩, rfl⟩

/-- DecodeGivesTheEncodedTermBack, EncodeGivesTheDecodedWordBack and NoTwoRowsMatchOneWord: terms at the ends of the encodings. -/
theorem witness_encode : encode 0x00400000 (.addi 31 31 (-32768)) = some 0x23FF8000 ∧
    encode 0xFFFFFFFC (.bgez 31 0xFFFE0000) = some 0x07E18000 ∧ encode 0x00400000 (.j 0x0FFFFFFC) = some 0x0BFFFFFF ∧
    encode 0 (.sll 31 31 31) = some 0x001FFFC0 := by decide

/-- ReservedWordsAreThoseWithoutARow: both sides. -/
theorem witness_reserved : (∃ r, decode 0 1 = .error r) ∧ (∃ r, decode 0 0x712B6020 = .error r) ∧
    ∃ i, decode 0 0 = .ok i := ⟨⟨_, rfl⟩, ⟨_, rfl⟩, ⟨_, rfl⟩⟩

/-- DecodedTermsNeverRaiseInvalidImmediate: the largest shift amount, and a term that faults otherwise. -/
theorem witness_decoded_fault : decode 0 0x20087FFF = .ok (.addi 8 0 32767) ∧ decode 0 0x21087FFF = .ok (.addi 8 8 32767) ∧
    (regs [(8, 0x7FFFFFFF)]).status = .running ∧
    (after (.addi 8 8 32767) (regs [(8, 0x7FFFFFFF)])).status = .faulted ⟨.arithmeticOverflow, 0x00400000, 0⟩ :=
  ⟨rfl, rfl, by decide, by decide⟩

/-- WordsRunLikeTheirTerms: the first two lines of P1. -/
theorem witness_words : encodeProgram State.reset.progBase [.lui 8 0x8000, .srl 9 8 24] = .ok [0x3C088000, 0x00084E02] := by rfl

/-- The two cases of the ports: closed and open. -/
theorem witness_ports : State.reset.status = .running ∧ ({ State.reset with status := .halted } : State).status ≠ .running := by
  decide

/-- WordsReadBackAsWritten, MemWriteStoresTheBytesInOrder, MemReadSumsTheBytesInOrder: a canonical memory, the last aligned word
of the address space and a misaligned address. -/
theorem witness_memory : bytesM.mem.wf ∧ (0xFFFFFFFC : Word).toNat % 4 = 0 ∧ (0xFFFFFFFC : Word).toNat % Width.word.bytes = 0 ∧
    (0x10010006 : Word).toNat % Width.word.bytes ≠ 0 := by decide

/-- ByteLoadsSeeTheWordStored: M17, at the last byte. -/
theorem witness_mixed : bytesM.mem.wf ∧ Instr.wf (.sw 8 4 9) = true ∧ Instr.wf (.lbu 10 7 9) = true ∧ (10 : RegNum) ≠ 0 ∧
    (effectiveAddress bytesM 9 4).toNat % 4 = 0 ∧ (effectiveAddress bytesM 9 7).toNat = (effectiveAddress bytesM 9 4).toNat + 3 := by
  decide

/-- AddWritesTheExactSumOrRaises: both ends of the range, and one past each. -/
theorem witness_add :
    sint32 ((regs [(8, 0x80000000), (9, 0)]).getReg 8) + sint32 ((regs [(8, 0x80000000), (9, 0)]).getReg 9) = -2 ^ 31 ∧
    sint32 ((regs [(8, 0x7FFFFFFF), (9, 0)]).getReg 8) + sint32 ((regs [(8, 0x7FFFFFFF), (9, 0)]).getReg 9) = 2 ^ 31 - 1 ∧
    sint32 ((regs [(8, 0x80000000), (9, 0xFFFFFFFF)]).getReg 8) + sint32 ((regs [(8, 0x80000000), (9, 0xFFFFFFFF)]).getReg 9) <
      -2 ^ 31 ∧
    2 ^ 31 - 1 < sint32 ((regs [(8, 0x7FFFFFFF), (9, 1)]).getReg 8) + sint32 ((regs [(8, 0x7FFFFFFF), (9, 1)]).getReg 9) := by
  decide

/-- SubWritesTheExactDifferenceOrRaises: both ends of the range, and one past each. -/
theorem witness_sub :
    sint32 ((regs [(8, 0x80000000), (9, 0)]).getReg 8) - sint32 ((regs [(8, 0x80000000), (9, 0)]).getReg 9) = -2 ^ 31 ∧
    sint32 ((regs [(8, 0xFFFFFFFF), (9, 0x80000000)]).getReg 8) - sint32 ((regs [(8, 0xFFFFFFFF), (9, 0x80000000)]).getReg 9) =
      2 ^ 31 - 1 ∧
    sint32 ((regs [(8, 0x80000000), (9, 1)]).getReg 8) - sint32 ((regs [(8, 0x80000000), (9, 1)]).getReg 9) < -2 ^ 31 ∧
    2 ^ 31 - 1 < sint32 ((regs [(8, 0), (9, 0x80000000)]).getReg 8) - sint32 ((regs [(8, 0), (9, 0x80000000)]).getReg 9) := by
  decide

/-- AddiChecksTheImmediateThenTheSum: A10 to A15. -/
theorem witness_addi :
    ((-32769 : Int) < -32768 ∧ (32767 : Int) < 32768) ∧
    (-2 ^ 31 ≤ sint32 ((regs []).getReg 8) + 32767 ∧ sint32 ((regs []).getReg 8) + -32768 ≤ 2 ^ 31 - 1) ∧
    2 ^ 31 - 1 < sint32 ((regs [(8, 0x7FFFFFFF)]).getReg 8) + 1 ∧ sint32 ((regs [(8, 0x80000000)]).getReg 8) + -1 < -2 ^ 31 := by
  decide

/-- SllMultipliesByAPowerOfTwo, SrlDividesTheUnsignedValue, LuiLoadsTheUpperHalf and the loads: their two clauses split the
integers at the ends of a range. -/
theorem witness_ranges : ((-1 : Int) < 0 ∧ (31 : Int) < 32) ∧ ((0 : Int) ≤ 0 ∧ (31 : Int) ≤ 31) ∧ ((65535 : Int) < 65536) ∧
    ((-32769 : Int) < -32768 ∧ (32767 : Int) < 32768) ∧ (-32768 : Int) ≤ -32768 := by decide

/-- SltComparesSigned: K1 and K4. -/
theorem witness_slt : (10 : RegNum) ≠ 0 ∧
    sint32 ((regs [(8, 0xFFFFFFFF), (9, 1)]).getReg 8) < sint32 ((regs [(8, 0xFFFFFFFF), (9, 1)]).getReg 9) ∧
    sint32 ((regs [(8, 7), (9, 7)]).getReg 9) ≤ sint32 ((regs [(8, 7), (9, 7)]).getReg 8) := by decide

/-- ShStoresTheLowHalfword and SwStoresTheWord: an aligned and a misaligned address (M9, M12), and the last word (M15). -/
theorem witness_store : (regs [(9, 0x10010000)]).mem.wf ∧ (effectiveAddress (regs [(9, 0x10010000)]) 9 6).toNat % 2 = 0 ∧
    (effectiveAddress (regs [(9, 0x10010000)]) 9 7).toNat % 2 ≠ 0 ∧ (effectiveAddress (regs [(9, 0x10010000)]) 9 6).toNat % 4 ≠ 0 ∧
    (effectiveAddress (regs [(9, 0xFFFFFFFC)]) 9 0).toNat % 4 = 0 ∧ (regs []).endian = .little ∧
    (bigEndian (regs [])).endian = .big := by decide

/-- The branches: zero, the least positive and the greatest negative value. -/
theorem witness_branch : 0 ≤ sint32 ((regs []).getReg 8) ∧ sint32 ((regs []).getReg 8) ≤ 0 ∧
    0 < sint32 ((regs [(8, 1)]).getReg 8) ∧ sint32 ((regs [(8, 0xFFFFFFFF)]).getReg 8) < 0 := by decide

/-- EachFaultHasItsInstructions: each kind is raised by some instruction in a Running state. -/
theorem witness_faults : (regs []).status = .running ∧ faultOf (after (.addi 9 8 32768) (regs [])) = some (2, 0) ∧
    faultOf (after (.add 10 8 8) (regs [(8, 0x40000000)])) = some (1, 0) ∧
    faultOf (after (.sw 8 2 9) (regs [])) = some (3, 2) := by decide

/-- AFaultingStepChangesOnlyTheStatus: steps that fault in an instruction, in a misaligned store and in the fetch. -/
theorem witness_faulting_step :
    (∃ t, step (withProgram [.lui 8 65536]) = .next t ∧ t.status = .faulted ⟨.invalidImmediate, 0x00400000, 0⟩) ∧
    (∃ t, step (withProgram [.sh 8 7 0]) = .next t ∧ t.status = .faulted ⟨.memoryAlignmentError, 0x00400000, 7⟩) ∧
    ∃ t, step ((withProgram []).jumpTo 4) = .next t ∧ t.status = .faulted ⟨.instructionFetchError, 4, 4⟩ :=
  ⟨⟨_, rfl, by decide⟩, ⟨_, rfl, by decide⟩, ⟨_, rfl, by decide⟩⟩

/-- OnlyMultWritesHiAndLo and NoInstructionReadsHiOrLo: a step that writes lo. -/
theorem witness_mult : ∃ t, step ((withProgram [.mult 8 8]).setReg 8 1) = .next t ∧ t.lo ≠ ((withProgram [.mult 8 8]).setReg 8 1).lo :=
  ⟨_, rfl, by decide⟩

/-- OnlyStoresDependOnEndian: a byte load. -/
theorem witness_load : storeOf (.lb 8 0 9) = none ∧ ∃ t, exec (.lb 8 0 9) bytesM = .next t := ⟨rfl, _, rfl⟩

/-- OnlyControlFlowLeavesTheSequence: a jump to itself. -/
theorem witness_jump : (withProgram [.j 0x00400000]).status = .running ∧
    (withProgram [.j 0x00400000]).pc ≠ (withProgram [.j 0x00400000]).progEnd ∧
    (withProgram [.j 0x00400000]).fetch (withProgram [.j 0x00400000]).pc = .ok (.j (withProgram [.j 0x00400000]).pc) ∧
    ∃ t, step (withProgram [.j 0x00400000]) = .next t ∧ t.status = .running ∧ t.pc ≠ (withProgram [.j 0x00400000]).pc + 4 :=
  ⟨by decide, by decide, rfl, _, rfl, by decide, by decide⟩

/-- OnlyStoresChangeMemory: a step that changes byte 3, the last of a word. -/
theorem witness_store_step : ((withProgram [.sw 8 0 0]).setReg 8 0xFF000000).mem.wf ∧
    ∃ t, step ((withProgram [.sw 8 0 0]).setReg 8 0xFF000000) = .next t ∧
      t.mem.read 3 ≠ ((withProgram [.sw 8 0 0]).setReg 8 0xFF000000).mem.read 3 := ⟨by decide, _, rfl, by decide⟩

/-- StepKeepsTheInvariant and RunsKeepTheInvariantUntilTheyEnd: a launched state that steps. -/
theorem witness_inv : (withProgram [.sll 0 0 0]).Launched ∧ ∃ t, step (withProgram [.sll 0 0 0]) = .next t :=
  ⟨⟨⟨by decide, by decide, by decide, trivial⟩, rfl⟩, _, rfl⟩

/-- BinaryLayerKeepsThePcAligned. -/
theorem witness_binary : (State.reset.withFetchWord 32 0x0C100009).prog.binaryLayer = true ∧
    (State.reset.withFetchWord 32 0x0C100009).pc.toNat % 4 = 0 ∧
    ∃ t, step (State.reset.withFetchWord 32 0x0C100009) = .next t := ⟨rfl, by decide, _, rfl⟩

/-- StepRunsTheTermAtThePc: the last entry of a program. -/
theorem witness_term_step : ((withProgram [.sll 0 0 0, .lui 8 1]).jumpTo 0x00400004).status = .running ∧
    ([.sll 0 0 0, .lui 8 1] : List Instr)[1]? = some (.lui 8 1) ∧
    ((withProgram [.sll 0 0 0, .lui 8 1]).jumpTo 0x00400004).pc =
      (withProgram [.sll 0 0 0, .lui 8 1]).progBase + BitVec.ofNat 32 (4 * 1) := by decide

/-- StepRunsTheDecodedWordAtThePc, and FetchFaultsAreRaisedAtThePc for a reserved word. -/
theorem witness_word_step : (State.reset.withFetchWord 32 0x0C100009).status = .running ∧
    (State.reset.withFetchWord 32 0x0C100009).prog = .words [0x0C100009] ∧
    (State.reset.withFetchWord 32 0x0C100009).pc =
      (State.reset.withFetchWord 32 0x0C100009).progBase + BitVec.ofNat 32 (4 * 0) ∧
    (State.reset.withFetchWord 32 0x0C100009).pc ≠ (State.reset.withFetchWord 32 0x0C100009).progEnd ∧
    decode (State.reset.withFetchWord 32 0x0C100009).pc 0x0C100009 = .ok (.jal 0x00400024) ∧
    decode (State.reset.withFetchWord 32 1).pc 1 = .error .noRow :=
  ⟨by decide, rfl, by decide, by decide, rfl, rfl⟩

/-- FetchFaultsAreRaisedAtThePc and AWildTargetFaultsAtTheNextFetch: one entry, a misaligned target. -/
theorem witness_wild : (withProgram [.j 0x00400002]).status = .running ∧
    (withProgram [.j 0x00400002]).pc ≠ (withProgram [.j 0x00400002]).progEnd ∧
    (withProgram [.j 0x00400002]).fetch (withProgram [.j 0x00400002]).pc = .ok (.j 0x00400002) ∧
    targetAddress (.j 0x00400002) = some 0x00400002 ∧
    (0x00400002 : Word) ≠ (withProgram [.j 0x00400002]).progEnd ∧
    ∀ k, k < (withProgram [.j 0x00400002]).prog.length →
      (0x00400002 : Word) ≠ (withProgram [.j 0x00400002]).progBase + BitVec.ofNat 32 (4 * k) :=
  ⟨by decide, by decide, rfl, rfl, by decide, by decide⟩

/-- RunsEndAtProgEndOrAtAFault: its three clauses. -/
theorem witness_ends : State.reset.status = .running ∧ State.reset.pc = State.reset.progEnd ∧
    ({ State.reset with status := .halted } : State).status = .halted ∧
    ({ State.reset with status := .faulted ⟨.invalidImmediate, 0, 0⟩ } : State).status = .faulted ⟨.invalidImmediate, 0, 0⟩ := by
  decide

end Sys2Proof.Tests
end

section
/-! PROOFS. The arithmetic utilities of 00_scope.md section 5: `overflow_detect` (R10, R11) and `clz32` (R12). -/

namespace Sys2Proof.Machine

/-! ## overflow_detect -/

/-- A normalised value lies in the signed range, being a signed reading. -/
theorem overflowDetect_range (v : Int) : -2147483648 ≤ overflowDetect v ∧ overflowDetect v ≤ 2147483647 := by
  rw [← sint32_uint32]
  exact sint32_range _

theorem overflowDetect_of_fits {v : Int} (low : -2147483648 ≤ v) (high : v ≤ 2147483647) : overflowDetect v = v := by
  rw [← sint32_uint32]
  exact sint32_uint32_of_fits low high

theorem overflowDetect_idem (v : Int) : overflowDetect (overflowDetect v) = overflowDetect v :=
  overflowDetect_of_fits (overflowDetect_range v).1 (overflowDetect_range v).2

/-- Settles O14: the range and the identity on it are those of the signed reading of a pattern, and idempotence is the identity
at a value of the range. -/
theorem overflowDetectNormalises : Obligations.OverflowDetectNormalises := by
  unfold Obligations.OverflowDetectNormalises
  refine ⟨fun v => ?_, by decide, by decide⟩
  obtain ⟨low, high⟩ := overflowDetect_range v
  exact ⟨rfl, (sint32_uint32 v).symm, low, high, overflowDetect_idem v, overflowDetect_of_fits⟩

/-! ## clz32 -/

/-- The scan of the zero pattern finds no 1 bit. -/
theorem leadingZerosBelow_zero (n : Nat) : leadingZerosBelow 0 n = n := by
  induction n with
  | zero => rfl
  | succ n ih => simpa [leadingZerosBelow] using ih

/-- In a pattern below `2^(n+1)`, bit n is set exactly when the pattern reaches `2^n`. -/
theorem getLsbD_top_iff {p : Word} {n : Nat} (bound : p.toNat < 2 ^ (n + 1)) : p.getLsbD n = true ↔ 2 ^ n ≤ p.toNat := by
  constructor
  · exact Nat.ge_two_pow_of_testBit
  · intro reach
    exact Nat.testBit_of_two_pow_le_and_two_pow_add_one_gt reach bound

/-- The scan of a nonzero pattern below `2^n` stops at its highest 1 bit, which is bit `log2 p`: the zeros it counted and the
`log2 p + 1` bits from there down are the n bits. -/
theorem leadingZerosBelow_add_log2 {p : Word} (nonzero : p.toNat ≠ 0) (n : Nat) (bound : p.toNat < 2 ^ n) :
    leadingZerosBelow p n + (Nat.log2 p.toNat + 1) = n := by
  induction n with
  | zero => omega
  | succ n ih =>
    unfold leadingZerosBelow
    split
    case isTrue set =>
      have : Nat.log2 p.toNat = n := (Nat.log2_eq_iff nonzero).mpr ⟨(getLsbD_top_iff bound).mp set, bound⟩
      omega
    case isFalse clear =>
      have := ih (by rwa [getLsbD_top_iff bound, not_le] at clear)
      omega

/-- Settles O15: the scan from bit 31 finds nothing in the zero pattern and stops at bit `log2 p` of any other. -/
theorem clzScanCountsLeadingZeros : Obligations.ClzScanCountsLeadingZeros := by
  unfold Obligations.ClzScanCountsLeadingZeros clz32
  intro p
  split
  case isTrue zero => rw [zero, leadingZerosBelow_zero]
  case isFalse nonzero =>
    have : p.toNat ≠ 0 := fun h => nonzero (BitVec.eq_of_toNat_eq h)
    have := leadingZerosBelow_add_log2 this 32 p.isLt
    omega

end Sys2Proof.Machine
end

section
/-! PROOFS. The register ports of 10_state.md R32 to R34: a `get` reads the pattern a `set` stored, on the state of a run and on a
run being built (R45). -/

namespace Sys2Proof.Machine

/-! ## What `get` makes of the stored pattern -/

theorem State.portGet_of_portPattern_eq_uint32 {s : State} {r : PortReg} {v : Int} (stored : s.portPattern r = uint32 v) :
    s.portGet r .unsigned = v % 2 ^ 32 ∧ s.portGet r .signed = overflowDetect v := by
  unfold State.portGet
  rw [stored]
  exact ⟨uint32_toNat v, sint32_uint32 v⟩

/-- A `get` looks at nothing but the pattern of its register. -/
theorem State.portGet_congr {s t : State} {q : PortReg} (same : t.portPattern q = s.portPattern q) (mode : ReadMode) :
    t.portGet q mode = s.portGet q mode := by
  unfold State.portGet
  rw [same]

@[simp] theorem State.portGet_gpr_zero (s : State) (mode : ReadMode) : s.portGet (.gpr 0) mode = 0 := by
  cases mode <;> rfl

/-! ## `set` on the state of a run -/

@[simp] theorem State.portSet_gpr_zero (s : State) (v : Int) : s.portSet (.gpr 0) v = s := s.setReg_zero (uint32 v)

theorem State.portPattern_portSet_same (s : State) {r : PortReg} (h : r ≠ .gpr 0) (v : Int) :
    (s.portSet r v).portPattern r = uint32 v := by
  rw [State.portPattern_portSet, if_pos ⟨rfl, h⟩]

theorem State.portPattern_portSet_other (s : State) {r q : PortReg} (h : q ≠ r) (v : Int) :
    (s.portSet r v).portPattern q = s.portPattern q := by
  rw [State.portPattern_portSet, if_neg fun both => h both.1]

@[simp] theorem State.portSet_status (s : State) (r : PortReg) (v : Int) : (s.portSet r v).status = s.status := by
  cases r <;> simp [State.portSet]

@[simp] theorem State.portSet_mem (s : State) (r : PortReg) (v : Int) : (s.portSet r v).mem = s.mem := by
  cases r <;> simp [State.portSet]

theorem State.sameRun_portSet (s : State) (r : PortReg) (v : Int) : SameRun s (s.portSet r v) := by
  cases r <;> constructor <;> simp [State.portSet]

/-! ## `set` on a run being built -/

/-- The discarded `set` of x[0] does not count as a `set` of pc either. -/
@[simp] theorem Setup.set_gpr_zero (u : Setup) (v : Int) : u.set (.gpr 0) v = u := by
  simp [Setup.set]

theorem Setup.portPattern_set_same (u : Setup) {r : PortReg} (h : r ≠ .gpr 0) (v : Int) :
    (u.set r v).state.portPattern r = uint32 v := by
  rw [Setup.portPattern_set, if_pos ⟨rfl, h⟩]

theorem Setup.portPattern_set_other (u : Setup) {r q : PortReg} (h : q ≠ r) (v : Int) :
    (u.set r v).state.portPattern q = u.state.portPattern q := by
  rw [Setup.portPattern_set, if_neg fun both => h both.1]

/-- Settles O17: on both sides `get` sees only the stored pattern, which `set` makes `uint32 v` at its register (x[0] excepted) and
leaves alone at every other; memory, status and the launch parameters are outside what `set` writes. -/
theorem portsRoundTrip : Obligations.PortsRoundTrip := by
  unfold Obligations.PortsRoundTrip
  constructor
  · intro s r v
    exact ⟨fun h => State.portGet_of_portPattern_eq_uint32 (s.portPattern_portSet_same h v), s.portSet_gpr_zero v,
      s.portGet_gpr_zero, fun _ mode h => State.portGet_congr (s.portPattern_portSet_other h v) mode,
      s.portSet_status r v, s.portSet_mem r v, s.sameRun_portSet r v⟩
  · intro u r v
    exact ⟨fun h => State.portGet_of_portPattern_eq_uint32 (u.portPattern_set_same h v), u.set_gpr_zero v,
      u.state.portGet_gpr_zero, fun _ mode h => State.portGet_congr (u.portPattern_set_other h v) mode,
      u.machine.portSet_mem r v, u.machine.sameRun_portSet r v⟩

end Sys2Proof.Machine
end

section
/-! PROOFS. MemRead and MemWrite of 20_memory.md: the value of a block of bytes as a weighted sum (R74), the byte stored at each
offset (R76), and a word read back as written (R77). -/

namespace Sys2Proof.Machine

/-! ## Byte order: the byte at an offset and the offset of a byte -/

/-- In an access of `n` bytes, the offset of byte `i` of the value, counted from the least significant (R75). -/
def byteOffset : Endian → Nat → Nat → Nat
  | .little, _, i => i
  | .big, n, i => n - 1 - i

theorem byteOffset_lt (e : Endian) {n i : Nat} (h : i < n) : byteOffset e n i < n := by
  cases e
  case little => exact h
  case big => show n - 1 - i < n; omega

/-- The byte at an offset and the offset of a byte are the same map. -/
theorem byteOffset_byteOffset (e : Endian) {n i : Nat} (h : i < n) : byteOffset e n (byteOffset e n i) = i := by
  cases e
  case little => rfl
  case big => show n - 1 - (n - 1 - i) = i; omega

theorem littleValue_map_range (byteAt : Nat → Byte) (n : Nat) :
    littleValue ((List.range n).map byteAt) = ∑ i ∈ Finset.range n, (byteAt i).toNat * 2 ^ (8 * i) := by
  induction n generalizing byteAt with
  | zero => rfl
  | succ n ih =>
    have weight (i : Nat) : 256 * ((byteAt (i + 1)).toNat * 2 ^ (8 * i)) = (byteAt (i + 1)).toNat * 2 ^ (8 * (i + 1)) := by ring
    rw [List.range_succ_eq_map, List.map_cons, List.map_map, littleValue, ih, Finset.mul_sum, Finset.sum_range_succ', add_comm]
    simp [weight]

/-- The big-endian list is the reverse of the little-endian one, so its sum is the little-endian sum reflected. -/
theorem valueOf_map_range (e : Endian) (byteAt : Nat → Byte) (n : Nat) :
    valueOf e ((List.range n).map byteAt) = ∑ i ∈ Finset.range n, (byteAt i).toNat * 2 ^ (8 * byteOffset e n i) := by
  cases e
  case little => exact littleValue_map_range byteAt n
  case big =>
    have reversed : ((List.range n).map byteAt).reverse = (List.range n).map fun i => byteAt (n - 1 - i) := by
      refine List.ext_getElem (by simp) fun i _ _ => ?_
      simp
    rw [valueOf, reversed, littleValue_map_range, ← Finset.sum_range_reflect]
    refine Finset.sum_congr rfl fun i hi => ?_
    have back : n - 1 - (n - 1 - i) = i := byteOffset_byteOffset .big (Finset.mem_range.mp hi)
    rw [back, byteOffset]

/-- Byte i of a value stands at its offset in the list of bytes stored (R76). -/
theorem bytesOf_getElem_byteOffset (e : Endian) {n i : Nat} (p : Nat) (h : i < n) :
    (bytesOf e n p)[byteOffset e n i]? = some (BitVec.ofNat 8 (p / 256 ^ i)) := by
  have little (j : Nat) (hj : j < n) : (littleBytes n p)[j]? = some (BitVec.ofNat 8 (p / 256 ^ j)) := by
    rw [List.getElem?_eq_getElem (by simpa using hj), littleBytes_getElem]
  cases e
  case little => exact little i h
  case big =>
    have back : n - 1 - (n - 1 - i) = i := byteOffset_byteOffset .big h
    rw [bytesOf, byteOffset, List.getElem?_reverse (by simp; omega), littleBytes_length, back, little i h]

/-! ## The low bytes of an integer -/

/-- The low `8n` bits of an integer keep its byte `i < n`: what they drop is a multiple of `256 * 256^i`. -/
theorem byte_of_low_bits (v : Int) {n i : Nat} (h : i < n) :
    (v % 2 ^ (8 * n)).toNat / 256 ^ i % 256 = (v / 256 ^ i % 256).toNat := by
  obtain ⟨k, rfl⟩ := Nat.exists_eq_add_of_lt h
  have low : v % 2 ^ (8 * (i + k + 1)) = v + 256 ^ i * (256 * -(256 ^ k * (v / 2 ^ (8 * (i + k + 1))))) := by
    rw [Int.emod_def, pow_mul]
    ring
  have same : v % 2 ^ (8 * (i + k + 1)) / 256 ^ i % 256 = v / 256 ^ i % 256 := by
    rw [low, Int.add_mul_ediv_left _ _ (by positivity), Int.add_mul_emod_self_left]
  have nonneg : 0 ≤ v % 2 ^ (8 * (i + k + 1)) := Int.emod_nonneg _ (by positivity)
  rw [← same]
  lift v % 2 ^ (8 * (i + k + 1)) to Nat using nonneg with p
  rfl

/-! ## MemRead and MemWrite -/

theorem aligned_iff {a : Word} {w : Width} : aligned a w = true ↔ a.toNat % w.bytes = 0 := decide_eq_true_iff

theorem not_aligned_iff {a : Word} {w : Width} : aligned a w = false ↔ a.toNat % w.bytes ≠ 0 := decide_eq_false_iff_not

theorem memRead_eq_none {e : Endian} {m : Memory} {a : Word} {w : Width} : memRead e m a w = none ↔ aligned a w = false := by
  by_cases h : aligned a w = true <;> simp [memRead, h]

theorem memWrite_isSome (e : Endian) (m : Memory) (a : Word) (w : Width) (v : Int) :
    (memWrite e m a w v).isSome = aligned a w := by
  by_cases h : aligned a w = true <;> simp [memWrite, h]

/-- A read of the width and at the address of a write gives the low bits written, in either byte order (R77). -/
theorem memRead_of_memWrite {e : Endian} {m m' : Memory} {a : Word} {w : Width} {v : Int} (canonical : m.wf)
    (wrote : memWrite e m a w v = some m') : memRead e m' a w = some (v % 2 ^ (8 * w.bytes)).toNat := by
  obtain ⟨ha, rfl⟩ := memWrite_eq_some.mp wrote
  refine memRead_eq_some.mpr ⟨ha, ?_⟩
  have readBack := Memory.readBytes_writeBytes canonical (a := a.toNat)
    (bs := bytesOf e w.bytes (v % 2 ^ (8 * w.bytes)).toNat) (by simpa using aligned_fits ha)
  rw [bytesOf_length] at readBack
  have positive : (0 : Int) < 2 ^ (8 * w.bytes) := by positivity
  have fits : (v % 2 ^ (8 * w.bytes)).toNat < 256 ^ w.bytes := by
    rw [Int.toNat_lt (Int.emod_nonneg _ positive.ne'), show (256 : Nat) = 2 ^ 8 from rfl, ← pow_mul]
    exact_mod_cast Int.emod_lt_of_pos v positive
  rw [readBack, valueOf_bytesOf, Nat.mod_eq_of_lt fits]

/-- Byte i of the value written reads back at its offset (R76). -/
theorem read_byteOffset_of_memWrite {e : Endian} {m m' : Memory} {a : Word} {w : Width} {v : Int} (canonical : m.wf)
    (wrote : memWrite e m a w v = some m') {i : Nat} (h : i < w.bytes) :
    (m'.read (a.toNat + byteOffset e w.bytes i)).toNat = (v / 256 ^ i % 256).toNat := by
  obtain ⟨-, -, reads⟩ := memWrite_spec canonical wrote
  rw [reads, if_pos (Nat.le_add_right ..), Nat.add_sub_cancel_left, bytesOf_getElem_byteOffset e _ h, Option.getD_some,
    BitVec.toNat_ofNat]
  exact byte_of_low_bits v h

theorem read_outside_of_memWrite {e : Endian} {m m' : Memory} {a : Word} {w : Width} {v : Int} (canonical : m.wf)
    (wrote : memWrite e m a w v = some m') {b : Nat} (outside : b < a.toNat ∨ a.toNat + w.bytes ≤ b) :
    m'.read b = m.read b := by
  obtain ⟨-, -, reads⟩ := memWrite_spec canonical wrote
  rw [reads]
  rcases outside with below | above
  · rw [if_neg (by omega)]
  · rw [List.getElem?_eq_none (by rw [bytesOf_length]; omega), Option.getD_none, ite_self]

/-- Settles O18: a Bits32 is its own low 32 bits, so `memRead_of_memWrite` gives it back. -/
theorem wordsReadBackAsWritten : Obligations.WordsReadBackAsWritten := by
  unfold Obligations.WordsReadBackAsWritten
  intro e m a canonical
  refine ⟨fun v ha => ?_, fun v => ⟨memWrite_isSome e m a .half v, memWrite_isSome e m a .word v⟩⟩
  have wrote := memWrite_eq_some (e := e) (m := m) (v := (v.toNat : Int)) |>.mpr ⟨aligned_iff (w := .word).mpr ha, rfl⟩
  refine ⟨_, wrote, ?_⟩
  have whole : ((v.toNat : Int) % 2 ^ (8 * Width.word.bytes)).toNat = v.toNat := by
    have := v.isLt
    simp only [Width.bytes]
    omega
  rw [memRead_of_memWrite canonical wrote, whole]

/-- Settles O19: an aligned write answers, and the bytes inside and outside the access are those of `read_byteOffset_of_memWrite` and
`read_outside_of_memWrite`. -/
theorem memWriteStoresTheBytesInOrder : Obligations.MemWriteStoresTheBytesInOrder := by
  unfold Obligations.MemWriteStoresTheBytesInOrder
  intro e m a w v canonical
  refine ⟨fun ha => memWrite_eq_none.mpr (not_aligned_iff.mpr ha), fun ha => ?_⟩
  have wrote := memWrite_eq_some (e := e) (m := m) (v := v) |>.mpr ⟨aligned_iff.mpr ha, rfl⟩
  obtain ⟨init, wf, -⟩ := memWrite_spec canonical wrote
  refine ⟨_, wrote, wf, init, fun i hi => ?_, fun b hb => read_outside_of_memWrite canonical wrote hb⟩
  have stored := read_byteOffset_of_memWrite canonical wrote hi
  cases e <;> exact stored

/-- Settles O20: the bytes read are those of the offsets in rising order, whose value is the weighted sum. -/
theorem memReadSumsTheBytesInOrder : Obligations.MemReadSumsTheBytesInOrder := by
  unfold Obligations.MemReadSumsTheBytesInOrder
  intro e m a w
  refine ⟨fun ha => memRead_eq_none.mpr (not_aligned_iff.mpr ha), fun ha => memRead_eq_some.mpr ⟨aligned_iff.mpr ha, ?_⟩⟩
  rw [Memory.readBytes_eq, valueOf_map_range]
  cases e <;> rfl

end Sys2Proof.Machine
end

section
/-! PROOFS. The arithmetic instructions of 40_arithmetic.md: the frames of a register write, a fault and a product write, then the
trapping additions and subtraction (R140, R142, R143), `addu` (R141) and `mult` (R144). -/

namespace Sys2Proof.Machine

/-! ## The frames of the shared updates -/

theorem State.sameRun_setReg (s : State) (i : RegNum) (v : Word) : SameRun s (s.setReg i v) := by
  constructor <;> simp

theorem State.onlyRegister_setReg (s : State) (dest : RegNum) (v : Word) : OnlyRegister s (s.setReg dest v) dest where
  others _ h := s.getReg_setReg_other h v
  zero := State.getReg_zero _
  pc := s.setReg_pc dest v
  hi := s.setReg_hi dest v
  lo := s.setReg_lo dest v
  memory a := by rw [State.setReg_mem]
  status := s.setReg_status dest v
  run := s.sameRun_setReg dest v

theorem raised_takeFault (s : State) (kind : FaultKind) (addr : Word) :
    Raised s (takeFault s kind s.instrAddress addr) kind addr where
  status := rfl
  pc := rfl
  hi := rfl
  lo := rfl
  data := ⟨fun _ => rfl, fun _ => rfl, rfl, rfl, rfl, rfl, rfl⟩

theorem sameData_writeProduct (s : State) (v : Int) : SameData s (writeProduct s v) :=
  ⟨fun _ => rfl, fun _ => rfl, rfl, rfl, rfl, rfl, rfl⟩

/-! ## The immediate check and the signed result -/

theorem withLegal_raises {legal : Bool} (illegal : legal = false) (s : State) (rest : Result) :
    ∃ t, withLegal legal s rest = .next t ∧ Raised s t .invalidImmediate 0 := by
  subst illegal
  exact ⟨_, withLegal_false s rest, raised_takeFault s .invalidImmediate 0⟩

theorem legalSigned16_iff (v : Int) : legalSigned16 v = true ↔ -32768 ≤ v ∧ v ≤ 32767 := by
  simp [legalSigned16]

theorem legalSigned16_eq_false {v : Int} (outside : v < -32768 ∨ 32767 < v) : legalSigned16 v = false := by
  rw [Bool.eq_false_iff, ne_eq, legalSigned16_iff]
  omega

/-- An exact result of the signed range is written and reads back, in the frame of a register write (R140, R142, R143). -/
theorem writeSigned_writes {v : Int} (low : -2 ^ 31 ≤ v) (high : v ≤ 2 ^ 31 - 1) (s : State) (dest : RegNum) :
    ∃ t, writeSigned s dest v = .next t ∧ OnlyRegister s t dest ∧ (dest ≠ 0 → sint32 (t.getReg dest) = v) := by
  refine ⟨_, writeSigned_of_fits ((fitsSigned32_iff v).mpr ⟨low, high⟩), s.onlyRegister_setReg dest _, fun nonzero => ?_⟩
  rw [s.getReg_setReg_same nonzero, sint32_uint32_of_fits low high]

/-- An exact result outside the signed range raises, whatever the destination (R140, R142, R143). -/
theorem writeSigned_raises {v : Int} (outside : v < -2 ^ 31 ∨ 2 ^ 31 - 1 < v) (s : State) (dest : RegNum) :
    ∃ t, writeSigned s dest v = .next t ∧ Raised s t .arithmeticOverflow 0 := by
  have overflow : fitsSigned32 v = false := by
    rw [Bool.eq_false_iff, ne_eq, fitsSigned32_iff]
    omega
  exact ⟨_, writeSigned_of_overflow overflow, raised_takeFault s .arithmeticOverflow 0⟩

/-! ## The additions and the subtraction -/

/-- Settles O23: `add` ends in `writeSigned` of the exact sum. -/
theorem addWritesTheExactSumOrRaises : Obligations.AddWritesTheExactSumOrRaises := by
  unfold Obligations.AddWritesTheExactSumOrRaises
  intro s rd rs rt
  exact ⟨fun low high => writeSigned_writes low high s rd, fun outside => writeSigned_raises outside s rd⟩

/-- Settles O24: a sum of patterns is the sum of their unsigned values modulo 2^32. -/
theorem adduWrapsAndNeverFaults : Obligations.AdduWrapsAndNeverFaults := by
  unfold Obligations.AdduWrapsAndNeverFaults
  intro s rd rs rt
  refine ⟨_, rfl, s.onlyRegister_setReg rd _, fun nonzero => ?_⟩
  rw [s.getReg_setReg_same nonzero, BitVec.toNat_add]

/-- A legal immediate leaves `addi` with the signed result alone (R142). -/
theorem exec_addi_of_legal {imm : Int} (low : -32768 ≤ imm) (high : imm ≤ 32767) (rt rs : RegNum) (s : State) :
    exec (.addi rt rs imm) s = writeSigned s rt (s.getSigned rs + imm) := by
  show withLegal (legalSigned16 imm) s _ = _
  rw [(legalSigned16_iff imm).mpr ⟨low, high⟩, withLegal_true]

/-- Settles O25: the immediate check comes before `writeSigned` of the exact sum. -/
theorem addiChecksTheImmediateThenTheSum : Obligations.AddiChecksTheImmediateThenTheSum := by
  unfold Obligations.AddiChecksTheImmediateThenTheSum
  intro s rt rs imm
  refine ⟨fun outside => withLegal_raises (legalSigned16_eq_false outside) s _, fun legalLow legalHigh => ?_⟩
  rw [exec_addi_of_legal legalLow legalHigh]
  exact ⟨fun low high => writeSigned_writes low high s rt, fun outside => writeSigned_raises outside s rt⟩

/-- Settles O26: `sub` ends in `writeSigned` of the exact difference. -/
theorem subWritesTheExactDifferenceOrRaises : Obligations.SubWritesTheExactDifferenceOrRaises := by
  unfold Obligations.SubWritesTheExactDifferenceOrRaises
  intro s rd rs rt
  exact ⟨fun low high => writeSigned_writes low high s rd, fun outside => writeSigned_raises outside s rd⟩

/-! ## The product -/

theorem writeProduct_lo_toNat (s : State) (v : Int) : ((writeProduct s v).lo.toNat : Int) = v % 2 ^ 64 % 2 ^ 32 := by
  rw [writeProduct_lo, BitVec.extractLsb'_toNat, BitVec.toNat_ofInt, Nat.shiftRight_zero]
  omega

theorem writeProduct_hi_toNat (s : State) (v : Int) : ((writeProduct s v).hi.toNat : Int) = v % 2 ^ 64 / 2 ^ 32 := by
  rw [writeProduct_hi, BitVec.extractLsb'_toNat, BitVec.toNat_ofInt, Nat.shiftRight_eq_div_pow]
  omega

/-- `hi` read signed and `lo` are together a value of the signed 64-bit range. -/
theorem writeProduct_joined (s : State) {v : Int} (low : -2 ^ 63 ≤ v) (high : v < 2 ^ 63) :
    sint32 (writeProduct s v).hi * 2 ^ 32 + (writeProduct s v).lo.toNat = v := by
  have lo := writeProduct_lo_toNat s v
  have hi := writeProduct_hi_toNat s v
  rw [sint32, BitVec.toInt_eq_toNat_cond]
  split <;> omega

/-- The product of two signed readings lies in the signed 64-bit range, being at most `2^31 * 2^31` in size. -/
theorem sint32_mul_range (p q : Word) : -2 ^ 63 ≤ sint32 p * sint32 q ∧ sint32 p * sint32 q < 2 ^ 63 := by
  have size (r : Word) : |sint32 r| ≤ 2 ^ 31 := abs_le.mpr ⟨(sint32_range r).1, (sint32_range r).2.trans (by decide)⟩
  have product : |sint32 p * sint32 q| ≤ 2 ^ 31 * 2 ^ 31 := by
    rw [abs_mul]
    exact mul_le_mul (size p) (size q) (abs_nonneg _) (by decide)
  obtain ⟨low, high⟩ := abs_le.mp product
  constructor <;> omega

/-- Settles O27: `mult` ends in `writeProduct`, whose halves join to the product because it lies in the signed 64-bit range. -/
theorem multWritesTheSignedProduct : Obligations.MultWritesTheSignedProduct := by
  unfold Obligations.MultWritesTheSignedProduct
  intro s rs rt
  obtain ⟨low, high⟩ := sint32_mul_range (s.getReg rs) (s.getReg rt)
  exact ⟨_, rfl, sameData_writeProduct s _, rfl, rfl, writeProduct_lo_toNat s _, writeProduct_hi_toNat s _,
    writeProduct_joined s low high⟩

end Sys2Proof.Machine
end

section
/-! PROOFS. The shifts of 41_shift.md: the check of the amount and the product by a power of two (R160), and the signed quotient by
the low 5 bits of a register (R162). -/

namespace Sys2Proof.Machine

/-! ## The shift amounts -/

theorem legalShift_iff (v : Int) : legalShift v = true ↔ 0 ≤ v ∧ v ≤ 31 := by
  simp [legalShift]

theorem legalShift_eq_false {v : Int} (outside : v < 0 ∨ 31 < v) : legalShift v = false := by
  rw [Bool.eq_false_iff, ne_eq, legalShift_iff]
  omega

/-- The amount `x[rs][4:0]` of a register shift is the register modulo 32 (R162). -/
theorem toNat_low5 (p : Word) : (p.extractLsb' 0 5).toNat = p.toNat % 32 := by
  rw [BitVec.extractLsb'_toNat, Nat.shiftRight_zero]

/-! ## The signed quotient -/

theorem sint32_sshiftRight (p : Word) (n : Nat) : sint32 (p.sshiftRight n) = sint32 p / 2 ^ n := by
  rw [sint32, BitVec.toInt_sshiftRight, Int.shiftRight_eq_div_pow, sint32, Nat.cast_pow, Nat.cast_ofNat]

/-! ## The instructions -/

/-- A legal amount leaves `sll` with the write of the shifted pattern alone (R160). -/
theorem exec_sll_of_legal {sa : Int} (low : 0 ≤ sa) (high : sa ≤ 31) (rd rt : RegNum) (s : State) :
    exec (.sll rd rt sa) s = .next (s.setReg rd (s.getReg rt <<< sa.toNat)) := by
  show withLegal (legalShift sa) s _ = _
  rw [(legalShift_iff sa).mpr ⟨low, high⟩, withLegal_true]

/-- Settles O28: an illegal amount raises before anything is written, and a left shift is a product by a power of two modulo
2^32. -/
theorem sllMultipliesByAPowerOfTwo : Obligations.SllMultipliesByAPowerOfTwo := by
  unfold Obligations.SllMultipliesByAPowerOfTwo
  intro s rd rt sa
  refine ⟨fun outside => withLegal_raises (legalShift_eq_false outside) s _, fun low high => ?_⟩
  refine ⟨_, exec_sll_of_legal low high rd rt s, s.onlyRegister_setReg rd _, fun nonzero => ?_⟩
  rw [s.getReg_setReg_same nonzero, BitVec.toNat_shiftLeft, Nat.shiftLeft_eq]

/-- Settles O30: an arithmetic right shift rounds the signed quotient down, and the amount is the register modulo 32. -/
theorem sravDividesTheSignedValue : Obligations.SravDividesTheSignedValue := by
  unfold Obligations.SravDividesTheSignedValue
  intro s rd rt rs
  refine ⟨_, rfl, s.onlyRegister_setReg rd _, fun nonzero => ?_⟩
  rw [s.getReg_setReg_same nonzero, sint32_sshiftRight, toNat_low5]

end Sys2Proof.Machine
end

section
/-! PROOFS. The comparison of 42_compare.md (R170). -/

namespace Sys2Proof.Machine

/-- Settles O31: `slt` is one register write, of 1 where the signed readings are in order and of 0 where they are not. -/
theorem sltComparesSigned : Obligations.SltComparesSigned := by
  unfold Obligations.SltComparesSigned
  intro s rd rs rt
  refine ⟨_, rfl, s.onlyRegister_setReg rd _, fun nonzero => ?_⟩
  rw [s.getReg_setReg_same nonzero]
  exact ⟨fun less => if_pos less, fun notLess => if_neg (Int.not_lt.mpr notLess)⟩

end Sys2Proof.Machine
end

section
/-! PROOFS. The memory accesses of 43_memory_access.md: the byte loads (R176, R177), the stores in either byte order (R178, R179),
and `lui` (R180), which accesses no memory. -/

namespace Sys2Proof.Machine

/-! ## The byte loads -/

/-- A byte read signed and extended to a pattern has the same signed reading (00_scope.md R8). -/
theorem sint32_signExtend8 (b : Byte) : sint32 (signExtend8 b.toNat) = b.toInt := by
  rw [sint32, signExtend8, BitVec.ofNat_toNat, BitVec.setWidth_eq, BitVec.toInt_signExtend_of_le (by decide)]

/-- A byte read unsigned and extended to a pattern has the same unsigned reading (00_scope.md R8). -/
theorem zeroExtend8_toNat (b : Byte) : (zeroExtend8 b.toNat).toNat = b.toNat := by
  rw [zeroExtend8, BitVec.ofNat_toNat, BitVec.setWidth_eq, BitVec.zeroExtend_eq_setWidth, BitVec.toNat_setWidth_of_le (by decide)]

/-- A byte load with a legal offset writes the extended byte at the effective address, in the frame of a register write (R176,
R177). -/
theorem load_byte_writes {offset : Int} (low : -32768 ≤ offset) (high : offset ≤ 32767) (s : State) (extend : Nat → Word)
    (rt base : RegNum) :
    ∃ t, load s .byte extend rt offset base = .next t ∧ OnlyRegister s t rt ∧
      (rt ≠ 0 → t.getReg rt = extend (s.mem.read (effectiveAddress s base offset).toNat).toNat) :=
  ⟨_, load_byte ((legalSigned16_iff offset).mpr ⟨low, high⟩), s.onlyRegister_setReg rt _,
    fun nonzero => s.getReg_setReg_same nonzero _⟩

/-- Settles O32: the offset check comes before the load, and sign extension keeps the signed reading of the byte. -/
theorem lbLoadsTheSignedByte : Obligations.LbLoadsTheSignedByte := by
  unfold Obligations.LbLoadsTheSignedByte
  intro s rt base offset
  refine ⟨fun outside => withLegal_raises (legalSigned16_eq_false outside) s _, fun low high => ?_⟩
  obtain ⟨t, loads, frame, value⟩ := load_byte_writes low high s signExtend8 rt base
  refine ⟨t, loads, frame, fun nonzero => ?_⟩
  rw [value nonzero, sint32_signExtend8]

/-- Settles O33: the offset check comes before the load, and zero extension keeps the unsigned reading of the byte. -/
theorem lbuLoadsTheUnsignedByte : Obligations.LbuLoadsTheUnsignedByte := by
  unfold Obligations.LbuLoadsTheUnsignedByte
  intro s rt base offset
  refine ⟨fun outside => withLegal_raises (legalSigned16_eq_false outside) s _, fun low high => ?_⟩
  obtain ⟨t, loads, frame, value⟩ := load_byte_writes low high s zeroExtend8 rt base
  refine ⟨t, loads, frame, fun nonzero => ?_⟩
  rw [value nonzero, zeroExtend8_toNat]

/-! ## The stores -/

/-- The byte `p[8i+7 : 8i]` as an integer quotient, as `read_byteOffset_of_memWrite` has it (20_memory.md R76). -/
theorem extractLsb'_byte_toNat (p : Word) (i : Nat) :
    (p.extractLsb' (8 * i) 8).toNat = ((p.toNat : Int) / 256 ^ i % 256).toNat := by
  rw [BitVec.extractLsb'_toNat, Nat.shiftRight_eq_div_pow, pow_mul]
  rfl

/-- A pattern stored reads back byte by byte: at offset k stands the byte that ENDIAN puts there (20_memory.md R75, R76). -/
theorem read_of_memWrite_pattern {e : Endian} {m m' : Memory} {a : Word} {w : Width} {p : Word} (canonical : m.wf)
    (wrote : memWrite e m a w (p.toNat : Int) = some m') {k : Nat} (inside : k < w.bytes) :
    m'.read (a.toNat + k) = p.extractLsb' (8 * byteOffset e w.bytes k) 8 := by
  have stored := read_byteOffset_of_memWrite canonical wrote (byteOffset_lt e inside)
  rw [byteOffset_byteOffset e inside] at stored
  exact BitVec.eq_of_toNat_eq (stored.trans (extractLsb'_byte_toNat p _).symm)

/-- A MemWrite into the memory of a state changes the bytes of the access and nothing else (20_memory.md R71). -/
theorem onlyBytes_of_memWrite {s : State} {e : Endian} {m : Memory} {a : Word} {w : Width} {v : Int} (canonical : s.mem.wf)
    (wrote : memWrite e s.mem a w v = some m) : OnlyBytes s { s with mem := m } a.toNat w.bytes where
  others _ outside := read_outside_of_memWrite canonical wrote outside
  regs _ := rfl
  pc := rfl
  hi := rfl
  lo := rfl
  status := rfl
  run := ⟨rfl, rfl, rfl, rfl, (memWrite_spec canonical wrote).1⟩

/-- A store with a legal offset to a misaligned address raises with that address (R178, R179). -/
theorem store_raises {offset : Int} (low : -32768 ≤ offset) (high : offset ≤ 32767) (s : State) (w : Width)
    (rt base : RegNum) (misaligned : (effectiveAddress s base offset).toNat % w.bytes ≠ 0) :
    ∃ t, store s w rt offset base = .next t ∧ Raised s t .memoryAlignmentError (effectiveAddress s base offset) :=
  ⟨_, store_of_misaligned ((legalSigned16_iff offset).mpr ⟨low, high⟩) (not_aligned_iff.mpr misaligned),
    raised_takeFault s .memoryAlignmentError _⟩

/-- A store with a legal offset to an aligned address puts the low bytes of the source there in byte order (R178, R179). -/
theorem store_writes {offset : Int} (low : -32768 ≤ offset) (high : offset ≤ 32767) {s : State} (canonical : s.mem.wf)
    (w : Width) (rt base : RegNum) (divides : (effectiveAddress s base offset).toNat % w.bytes = 0) :
    ∃ t, store s w rt offset base = .next t ∧ OnlyBytes s t (effectiveAddress s base offset).toNat w.bytes ∧
      ∀ k, k < w.bytes → t.mem.read ((effectiveAddress s base offset).toNat + k) =
        (s.getReg rt).extractLsb' (8 * byteOffset s.endian w.bytes k) 8 := by
  obtain ⟨m, wrote, stores⟩ :=
    store_of_aligned (rt := rt) ((legalSigned16_iff offset).mpr ⟨low, high⟩) (aligned_iff.mpr divides)
  exact ⟨_, stores, onlyBytes_of_memWrite canonical wrote, fun k inside => read_of_memWrite_pattern canonical wrote inside⟩

/-- Settles O34: the offset check, then the alignment check, then the two bytes at the offsets of the byte order. -/
theorem shStoresTheLowHalfword : Obligations.ShStoresTheLowHalfword := by
  unfold Obligations.ShStoresTheLowHalfword
  intro s rt base offset canonical
  refine ⟨fun outside => withLegal_raises (legalSigned16_eq_false outside) s _,
    fun low high misaligned => store_raises low high s .half rt base misaligned, fun low high divides => ?_⟩
  obtain ⟨t, stores, frame, bytes⟩ := store_writes low high canonical .half rt base divides
  refine ⟨t, stores, frame, fun little => ?_, fun big => ?_⟩
  · rw [little] at bytes
    exact ⟨bytes 0 (by decide), bytes 1 (by decide)⟩
  · rw [big] at bytes
    exact ⟨bytes 0 (by decide), bytes 1 (by decide)⟩

/-- Settles O35: the offset check, then the alignment check, then the four bytes at the offsets of the byte order. -/
theorem swStoresTheWord : Obligations.SwStoresTheWord := by
  unfold Obligations.SwStoresTheWord
  intro s rt base offset canonical
  refine ⟨fun outside => withLegal_raises (legalSigned16_eq_false outside) s _,
    fun low high misaligned => store_raises low high s .word rt base misaligned, fun low high divides => ?_⟩
  obtain ⟨t, stores, frame, bytes⟩ := store_writes low high canonical .word rt base divides
  refine ⟨t, stores, frame, fun little => ?_, fun big => ?_⟩
  · rw [little] at bytes
    exact bytes
  · rw [big] at bytes
    exact bytes

/-! ## lui -/

theorem legalUnsigned16_iff (v : Int) : legalUnsigned16 v = true ↔ 0 ≤ v ∧ v ≤ 65535 := by
  simp [legalUnsigned16]

theorem legalUnsigned16_eq_false {v : Int} (outside : v < 0 ∨ 65535 < v) : legalUnsigned16 v = false := by
  rw [Bool.eq_false_iff, ne_eq, legalUnsigned16_iff]
  omega

/-- A legal immediate leaves `lui` with the write of the shifted immediate alone (R180). -/
theorem exec_lui_of_legal {imm : Int} (low : 0 ≤ imm) (high : imm ≤ 65535) (rt : RegNum) (s : State) :
    exec (.lui rt imm) s = .next (s.setReg rt (uint32 imm <<< 16)) := by
  show withLegal (legalUnsigned16 imm) s _ = _
  rw [(legalUnsigned16_iff imm).mpr ⟨low, high⟩, withLegal_true]

/-- A 16-bit immediate shifted into the upper half is its product by 2^16: no bit is lost (R180). -/
theorem uint32_shiftLeft16_toNat {imm : Int} (low : 0 ≤ imm) (high : imm ≤ 65535) :
    ((uint32 imm <<< 16).toNat : Int) = imm * 2 ^ 16 := by
  have pattern := uint32_toNat_of_range low (show imm < 2 ^ 32 by omega)
  rw [BitVec.toNat_shiftLeft, Nat.shiftLeft_eq, pattern]
  omega

/-- Settles O36: an illegal immediate raises before anything is written, and a legal one is written as its product by 2^16. -/
theorem luiLoadsTheUpperHalf : Obligations.LuiLoadsTheUpperHalf := by
  unfold Obligations.LuiLoadsTheUpperHalf
  intro s rt imm
  refine ⟨fun outside => withLegal_raises (legalUnsigned16_eq_false outside) s _, fun low high => ?_⟩
  refine ⟨_, exec_lui_of_legal low high rt s, s.onlyRegister_setReg rt _, fun nonzero => ?_⟩
  rw [s.getReg_setReg_same nonzero, uint32_shiftLeft16_toNat low high]

end Sys2Proof.Machine
end

section
/-! PROOFS. The control transfers of 44_control_flow.md: the frames of a jump and of a link (R195, R196, R201), the two outcomes of
each branch (R197 to R199), and the fetch fault at a target that holds no instruction (R200). -/

namespace Sys2Proof.Machine

/-! ## The frames of a jump and of a link -/

theorem State.jumped_jumpTo (s : State) (target : Word) : Jumped s (s.jumpTo target) target where
  pc := rfl
  hi := rfl
  lo := rfl
  status := rfl
  data := ⟨fun _ => rfl, fun _ => rfl, rfl, rfl, rfl, rfl, rfl⟩

theorem State.sameRun_linkTo (s : State) (target : Word) : SameRun s (s.linkTo target) := by
  constructor <;> simp

theorem State.linked_linkTo (s : State) (target : Word) : Linked s (s.linkTo target) target where
  pc := s.linkTo_pc target
  link := (s.linkTo_getReg target 31).trans (if_pos rfl)
  others r h := (s.linkTo_getReg target r).trans (if_neg h)
  hi := s.linkTo_hi target
  lo := s.linkTo_lo target
  memory a := by rw [State.linkTo_mem]
  status := s.linkTo_status target
  run := s.sameRun_linkTo target

/-! ## The jumps -/

/-- Settles O37: `j` is one jump. -/
theorem jumpSetsThePc : Obligations.JumpSetsThePc := by
  unfold Obligations.JumpSetsThePc
  intro s target
  exact ⟨_, rfl, s.jumped_jumpTo target⟩

/-- Settles O38: `jal` is one link, whose value is the pc before the jump. -/
theorem jumpAndLinkSavesThePc : Obligations.JumpAndLinkSavesThePc := by
  unfold Obligations.JumpAndLinkSavesThePc
  intro s target
  exact ⟨_, rfl, s.linked_linkTo target⟩

/-! ## The branches -/

section
variable {s : State} {rs : RegNum}

theorem exec_bgez_taken (nonneg : 0 ≤ sint32 (s.getReg rs)) (target : Word) :
    exec (.bgez rs target) s = .next (s.jumpTo target) := congrArg _ (if_pos nonneg)

theorem exec_bgez_not_taken (neg : sint32 (s.getReg rs) < 0) (target : Word) : exec (.bgez rs target) s = .next s :=
  congrArg _ (if_neg (Int.not_le.mpr neg))

theorem exec_bgezal_taken (nonneg : 0 ≤ sint32 (s.getReg rs)) (target : Word) :
    exec (.bgezal rs target) s = .next (s.linkTo target) := congrArg _ (if_pos nonneg)

theorem exec_bgezal_not_taken (neg : sint32 (s.getReg rs) < 0) (target : Word) : exec (.bgezal rs target) s = .next s :=
  congrArg _ (if_neg (Int.not_le.mpr neg))

theorem exec_blez_taken (nonpos : sint32 (s.getReg rs) ≤ 0) (target : Word) :
    exec (.blez rs target) s = .next (s.jumpTo target) := congrArg _ (if_pos nonpos)

theorem exec_blez_not_taken (pos : 0 < sint32 (s.getReg rs)) (target : Word) : exec (.blez rs target) s = .next s :=
  congrArg _ (if_neg (Int.not_le.mpr pos))

end

/-- Settles O39: taken, `bgez` is a jump; not taken, it is nothing. -/
theorem bgezBranchesOnNonNegative : Obligations.BgezBranchesOnNonNegative := by
  unfold Obligations.BgezBranchesOnNonNegative
  intro s rs target
  exact ⟨fun nonneg => ⟨_, exec_bgez_taken nonneg target, s.jumped_jumpTo target⟩, fun neg => exec_bgez_not_taken neg target⟩

/-- Settles O40: taken, `bgezal` is a link; not taken, it is nothing. -/
theorem bgezalLinksOnlyWhenTaken : Obligations.BgezalLinksOnlyWhenTaken := by
  unfold Obligations.BgezalLinksOnlyWhenTaken
  intro s rs target
  exact ⟨fun nonneg => ⟨_, exec_bgezal_taken nonneg target, s.linked_linkTo target⟩,
    fun neg => exec_bgezal_not_taken neg target⟩

/-- Settles O41: taken, `blez` is a jump; not taken, it is nothing. -/
theorem blezBranchesOnNonPositive : Obligations.BlezBranchesOnNonPositive := by
  unfold Obligations.BlezBranchesOnNonPositive
  intro s rs target
  exact ⟨fun nonpos => ⟨_, exec_blez_taken nonpos target, s.jumped_jumpTo target⟩, fun pos => exec_blez_not_taken pos target⟩

/-! ## Targets are not checked -/

/-- Whatever its target, a control transfer falls through, jumps there or links there, and raises nothing (R200). -/
theorem exec_transfer {i : Instr} {target : Word} (flow : targetAddress i = some target) (s : State) :
    exec i s = .next s ∨ exec i s = .next (s.jumpTo target) ∨ exec i s = .next (s.linkTo target) := by
  cases i with
  | j a =>
    cases flow
    exact .inr (.inl rfl)
  | jal a =>
    cases flow
    exact .inr (.inr rfl)
  | bgez rs a =>
    cases flow
    obtain neg | nonneg := lt_or_ge (sint32 (s.getReg rs)) 0
    · exact .inl (exec_bgez_not_taken neg target)
    · exact .inr (.inl (exec_bgez_taken nonneg target))
  | bgezal rs a =>
    cases flow
    obtain neg | nonneg := lt_or_ge (sint32 (s.getReg rs)) 0
    · exact .inl (exec_bgezal_not_taken neg target)
    · exact .inr (.inr (exec_bgezal_taken nonneg target))
  | blez rs a =>
    cases flow
    obtain pos | nonpos := lt_or_ge 0 (sint32 (s.getReg rs))
    · exact .inl (exec_blez_not_taken pos target)
    · exact .inr (.inl (exec_blez_taken nonpos target))
  | _ => cases flow

/-- A control transfer keeps the status and ends at its target or where it found the pc. -/
theorem exec_transfer_pc {i : Instr} {target : Word} (flow : targetAddress i = some target) (s : State) :
    ∃ t, exec i s = .next t ∧ t.status = s.status ∧ (t.pc = target ∨ t.pc = s.pc) := by
  obtain falls | jumps | links := exec_transfer flow s
  · exact ⟨s, falls, rfl, .inr rfl⟩
  · exact ⟨_, jumps, s.jumpTo_status target, .inl (s.jumpTo_pc target)⟩
  · exact ⟨_, links, s.linkTo_status target, .inl (s.linkTo_pc target)⟩

/-- A Running state whose pc is neither PROG_END nor the address of an entry faults at the fetch: its status changes and nothing
else (10_state.md R50, 60_exceptions.md R230). -/
theorem step_of_no_entry {s : State} (running : s.status = .running) (notEnd : s.pc ≠ s.progEnd)
    (noEntry : ∀ k, k < s.prog.length → s.pc ≠ s.progBase + BitVec.ofNat 32 (4 * k)) :
    step s = .next { s with status := .faulted ⟨.instructionFetchError, s.pc, s.pc⟩ } := by
  have fetchFails : s.fetch s.pc = .error .instructionFetchError := by
    unfold State.fetch
    rw [entryAt_eq_none noEntry]
  exact step_of_fetch_error running notEnd fetchFails

/-- Settles O60: the step of a transfer keeps the status Running whatever the target, and the fault is that of the next fetch. -/
theorem aWildTargetFaultsAtTheNextFetch : Obligations.AWildTargetFaultsAtTheNextFetch := by
  unfold Obligations.AWildTargetFaultsAtTheNextFetch
  intro s i target running notEnd fetched flow
  obtain ⟨t, commits, status, pc⟩ := exec_transfer_pc flow s.advance
  have stillRunning : t.status = .running := status.trans running
  exact ⟨t, (step_of_fetch_ok running notEnd fetched).trans commits, stillRunning, pc, step_of_no_entry stillRunning⟩

end Sys2Proof.Machine
end

section
/-! PROOFS. The bit counting of 45_bit_counting.md: a count is at most 32, so the register it is written to holds it exactly
(R215, R216). -/

namespace Sys2Proof.Machine

/-! ## The counts -/

theorem leadingZerosBelow_le (p : Word) (n : Nat) : leadingZerosBelow p n ≤ n := by
  induction n with
  | zero => exact Nat.le_refl 0
  | succ n ih =>
    unfold leadingZerosBelow
    split
    case isTrue => exact Nat.zero_le _
    case isFalse => exact Nat.succ_le_succ ih

theorem clz32_le (p : Word) : clz32 p ≤ 32 := leadingZerosBelow_le p 32

theorem clo32_le (p : Word) : clo32 p ≤ 32 := clz32_le _

/-- The complement of a pattern is zero for the pattern of ones alone, so R12's count of it splits there (R13). -/
theorem clo32_eq (p : Word) :
    clo32 p = if p = 0xFFFFFFFF then 32 else 31 - Nat.log2 (p ^^^ 0xFFFFFFFF).toNat :=
  (clzScanCountsLeadingZeros (p ^^^ 0xFFFFFFFF)).trans (if_congr BitVec.xor_eq_zero_iff rfl rfl)

/-! ## The instructions -/

/-- A count of at most 32 fits the register it is written to. -/
theorem State.getReg_setReg_count {n : Nat} (bound : n ≤ 32) (s : State) {rd : RegNum} (nonzero : rd ≠ 0) :
    ((s.setReg rd (BitVec.ofNat 32 n)).getReg rd).toNat = n := by
  have fits : n < 2 ^ 32 := by omega
  rw [s.getReg_setReg_same nonzero, BitVec.toNat_ofNat, Nat.mod_eq_of_lt fits]

/-- Settles O42: `clz` is one register write, of the count of O15. -/
theorem clzWritesTheZeroCount : Obligations.ClzWritesTheZeroCount := by
  unfold Obligations.ClzWritesTheZeroCount
  intro s rd rs
  refine ⟨_, rfl, s.onlyRegister_setReg rd _, fun nonzero => ?_⟩
  rw [s.getReg_setReg_count (clz32_le _) nonzero, clzScanCountsLeadingZeros (s.getReg rs)]

/-- Settles O43: `clo` is one register write, of the zero count of the complement. -/
theorem cloWritesTheOneCount : Obligations.CloWritesTheOneCount := by
  unfold Obligations.CloWritesTheOneCount
  intro s rd rs
  refine ⟨_, rfl, s.onlyRegister_setReg rd _, fun nonzero => ?_⟩
  rw [s.getReg_setReg_count (clo32_le _) nonzero, clo32_eq]

end Sys2Proof.Machine
end

section
/-! PROOFS. The faults of 60_exceptions.md: a fetch that finds no instruction (R230, R231), and the state after any faulting step
(R225, R226, R233). -/

namespace Sys2Proof.Machine

/-! ## Fetch faults -/

/-- With fewer than 2^30 words, entry k is fetched by decoding its word at that entry's address (10_state.md R50, 30_encoding.md R109;
log entry 9). -/
theorem State.fetch_word {s : State} {ws : List Word} {k : Nat} {w A : Word} (prog : s.prog = .words ws)
    (size : ws.length < 2 ^ 30) (entry : ws[k]? = some w) (address : A = s.progBase + BitVec.ofNat 32 (4 * k)) :
    s.fetch A = (decode A w).mapError fun _ => .reservedInstruction := by
  have length : s.prog.length = ws.length := by rw [prog]; rfl
  have inside : k < s.prog.length := length ▸ (List.getElem?_eq_some_iff.mp entry).1
  have found : s.entryAt A = some k := address ▸ entryAt_entry inside (length ▸ size)
  unfold State.fetch
  simp only [found, prog, entry]
  cases decode A w <;> rfl

/-- Settles O58: an address that holds no entry and a reserved word are the two ways a fetch fails. -/
theorem fetchFaultsAreRaisedAtThePc : Obligations.FetchFaultsAreRaisedAtThePc := by
  unfold Obligations.FetchFaultsAreRaisedAtThePc
  intro s running notEnd
  refine ⟨step_of_no_entry running notEnd, fun ws k w r prog size entry address reserved => ?_⟩
  have fetchFails : s.fetch s.pc = .error .reservedInstruction := by
    rw [State.fetch_word prog size entry address, reserved]
    rfl
  exact step_of_fetch_error running notEnd fetchFails

/-! ## The state after a fault -/

/-- A fault in Execute undoes the advance: against the state before the step, only the status changed (R233; 10_state.md R50). -/
theorem takeFault_advance (s : State) (kind : FaultKind) (addr : Word) :
    takeFault s.advance kind s.advance.instrAddress addr = { s with status := .faulted ⟨kind, s.pc, addr⟩ } := by
  rw [State.advance_instrAddress]
  rfl

/-- An address that is misaligned for an access of any width is no multiple of 4. -/
theorem mod_four_ne_zero_of_misaligned {a : Word} {w : Width} (misaligned : a.toNat % w.bytes ≠ 0) : a.toNat % 4 ≠ 0 := by
  cases w <;> simp only [Width.bytes] at misaligned <;> omega

/-- An executed instruction that faults a Running state takes the fault at its own address, and the record's addr is the one of its
kind (R225): 0, or the misaligned address of the store. -/
theorem Effect.takes_fault {i : Instr} {s t : State} {rec : FaultRecord} (effect : Effect i s t)
    (running : s.status = .running) (faulted : t.status = .faulted rec) :
    t = takeFault s rec.kind s.instrAddress rec.addr ∧ rec.pc = s.instrAddress ∧ rec.addrOk ∧
      (rec.kind = .memoryAlignmentError → ∃ w rt offset base, storeOf i = some (w, rt, offset, base) ∧
        rec.addr = effectiveAddress s base offset ∧ rec.addr.toNat % w.bytes ≠ 0) := by
  cases effect with
  | register | product | stored | fallsThrough | jumps | links => simp [running] at faulted
  | badImmediate | overflow =>
    cases faulted
    exact ⟨rfl, rfl, rfl, nofun⟩
  | misaligned w rt base offset _ is bad =>
    cases faulted
    have misaligned := not_aligned_iff.mp bad
    exact ⟨rfl, rfl, mod_four_ne_zero_of_misaligned misaligned, fun _ => ⟨w, rt, offset, base, is, rfl, misaligned⟩⟩

/-- A fetch that fails takes one of the two fetch kinds, whose records hold the pc twice (R225). -/
theorem addrOk_of_fetch_error {s : State} {A : Word} {kind : FaultKind} (failed : s.fetch A = .error kind) (pc : Word) :
    FaultRecord.addrOk ⟨kind, pc, pc⟩ ∧ kind ≠ .memoryAlignmentError := by
  obtain rfl | rfl := fetch_error_kind failed
  · exact ⟨rfl, nofun⟩
  · exact ⟨rfl, nofun⟩

/-- Settles O46: a step that faults does so in the fetch, which has changed nothing, or in Execute, whose fault undoes the advance. -/
theorem aFaultingStepChangesOnlyTheStatus : Obligations.AFaultingStepChangesOnlyTheStatus := by
  unfold Obligations.AFaultingStepChangesOnlyTheStatus
  intro s t rec stepped faulted
  have running := running_of_step stepped
  obtain ⟨-, rfl⟩ | ⟨kind, -, failed, rfl⟩ | ⟨i, -, fetched, ran⟩ := step_running running stepped
  case inl => cases faulted
  case inr.inl =>
    cases faulted
    obtain ⟨addrOk, notAlignment⟩ := addrOk_of_fetch_error failed s.pc
    exact ⟨rfl, rfl, addrOk, fun alignment => absurd alignment notAlignment⟩
  case inr.inr =>
    obtain ⟨state, pc, addrOk, store⟩ := (effect_of_exec ran).takes_fault running faulted
    rw [State.advance_instrAddress] at pc
    refine ⟨?_, pc, addrOk, fun alignment => ?_⟩
    · rw [state, takeFault_advance, ← pc]
    · obtain ⟨w, rt, offset, base, is, addr, misaligned⟩ := store alignment
      exact ⟨i, w, rt, offset, base, fetched, is, addr, misaligned⟩

end Sys2Proof.Machine
end

section
/-! PROOFS. The opcode map and the decoder of 30_encoding.md section 2: no two rows share a word (R111), which words are reserved
(R109), and decoding and encoding undo each other (R107, R110). -/

namespace Sys2Proof

/-! ## The rows of the opcode map -/

theorem Mnemonic.mem_all (m : Mnemonic) : m ∈ Mnemonic.all := by
  cases m <;> decide

/-- Two different rows fix some bit to different values. -/
theorem Mnemonic.rows_conflict :
    ∀ m ∈ Mnemonic.all, ∀ k ∈ Mnemonic.all, m.pattern &&& k.mask = k.pattern &&& m.mask → m = k := by
  decide

theorem Mnemonic.matchesWord_iff (m : Mnemonic) (w : Word) : m.matchesWord w = true ↔ w &&& m.mask = m.pattern :=
  decide_eq_true_iff

/-- A word of two rows has the fixed bits of both, so the rows agree where both fix a bit (R111). -/
theorem Mnemonic.eq_of_matchesWord {m k : Mnemonic} {w : Word} (hm : m.matchesWord w = true) (hk : k.matchesWord w = true) :
    m = k := by
  rw [Mnemonic.matchesWord_iff] at hm hk
  refine Mnemonic.rows_conflict m m.mem_all k k.mem_all ?_
  rw [← hm, ← hk, BitVec.and_assoc, BitVec.and_assoc, BitVec.and_comm m.mask]

theorem rowOf_eq_none_iff (w : Word) : rowOf w = none ↔ ∀ m : Mnemonic, m.matchesWord w = false := by
  unfold rowOf
  rw [List.find?_eq_none]
  exact ⟨fun h m => Bool.eq_false_iff.mpr (h m m.mem_all), fun h m _ => Bool.eq_false_iff.mp (h m)⟩

theorem rowOf_eq_some_iff (w : Word) (m : Mnemonic) : rowOf w = some m ↔ m.matchesWord w = true := by
  have matched {k : Mnemonic} (found : rowOf w = some k) : k.matchesWord w = true :=
    List.find?_some (p := fun row : Mnemonic => row.matchesWord w) found
  refine ⟨matched, fun hm => ?_⟩
  cases found : rowOf w with
  | none => rw [(rowOf_eq_none_iff w).mp found m] at hm; cases hm
  | some k => rw [Mnemonic.eq_of_matchesWord hm (matched found)]

/-! ## What the decoder answers -/

/-- The rt field of a count's word is its rd field (R108). -/
def Mnemonic.CountOk (m : Mnemonic) (w : Word) : Prop := m.needsRtEqRd = true → rtField w = rdField w

theorem decode_eq_ok_iff (A w : Word) (i : Instr) :
    decode A w = .ok i ↔ ∃ m : Mnemonic, m.matchesWord w = true ∧ m.CountOk w ∧ i = m.term A w := by
  unfold decode Mnemonic.CountOk
  constructor
  · intro h
    split at h
    · cases h
    · rename_i m row
      split at h
      · cases h
      · rename_i count
        cases h
        exact ⟨m, (rowOf_eq_some_iff w m).mp row, fun needs => by simpa [needs] using count, rfl⟩
  · rintro ⟨m, hm, count, rfl⟩
    rw [(rowOf_eq_some_iff w m).mpr hm]
    refine if_neg fun bad => ?_
    obtain ⟨needs, differ⟩ := Bool.and_eq_true_iff.mp bad
    exact bne_iff_ne.mp differ (count needs)

theorem decode_eq_error_iff (A w : Word) :
    (∃ r, decode A w = .error r) ↔ (∀ m : Mnemonic, m.matchesWord w = false) ∨
      ∃ m : Mnemonic, m.matchesWord w = true ∧ m.needsRtEqRd = true ∧ rtField w ≠ rdField w := by
  unfold decode
  cases row : rowOf w with
  | none => exact ⟨fun _ => .inl ((rowOf_eq_none_iff w).mp row), fun _ => ⟨_, rfl⟩⟩
  | some m =>
    have hm := (rowOf_eq_some_iff w m).mp row
    constructor
    · rintro ⟨r, h⟩
      dsimp only at h
      split at h
      · rename_i bad
        obtain ⟨needs, differ⟩ := Bool.and_eq_true_iff.mp bad
        exact .inr ⟨m, hm, needs, bne_iff_ne.mp differ⟩
      · cases h
    · rintro (none | ⟨k, hk, needs, differ⟩)
      · rw [none m] at hm; cases hm
      · cases Mnemonic.eq_of_matchesWord hm hk
        exact ⟨_, if_pos (Bool.and_eq_true_iff.mpr ⟨needs, bne_iff_ne.mpr differ⟩)⟩

theorem Mnemonic.mnemonic_term (m : Mnemonic) (A w : Word) : (m.term A w).mnemonic = m := by
  cases m <;> rfl

/-- Settles O10: a word matches one row at most, and its decoded term is that row's. -/
theorem noTwoRowsMatchOneWord : Obligations.NoTwoRowsMatchOneWord := by
  unfold Obligations.NoTwoRowsMatchOneWord
  refine fun w => ⟨fun m k => Mnemonic.eq_of_matchesWord, fun A i decodes => ?_⟩
  obtain ⟨m, hm, -, rfl⟩ := (decode_eq_ok_iff A w i).mp decodes
  rwa [Mnemonic.mnemonic_term]

/-- The rows of the two counts are those with a condition on rt (R108). -/
theorem Mnemonic.needsRtEqRd_iff (m : Mnemonic) : m.needsRtEqRd = true ↔ m = .clz ∨ m = .clo := by
  cases m <;> decide

/-- Settles O11: the decoder's two answers for a reserved word are the two sides of the disjunction. -/
theorem reservedWordsAreThoseWithoutARow : Obligations.ReservedWordsAreThoseWithoutARow := by
  unfold Obligations.ReservedWordsAreThoseWithoutARow
  intro A w
  rw [decode_eq_error_iff]
  refine or_congr_right ⟨?_, ?_⟩
  · rintro ⟨m, hm, needs, differ⟩
    obtain rfl | rfl := m.needsRtEqRd_iff.mp needs
    · exact ⟨.inl hm, differ⟩
    · exact ⟨.inr hm, differ⟩
  · rintro ⟨hm | hm, differ⟩
    · exact ⟨.clz, hm, rfl, differ⟩
    · exact ⟨.clo, hm, rfl, differ⟩

/-! ## Immediates and their fields (R107, R110) -/

theorem isSigned16_iff (v : Int) : isSigned16 v = true ↔ -32768 ≤ v ∧ v ≤ 32767 := decide_eq_true_iff
theorem isUnsigned16_iff (v : Int) : isUnsigned16 v = true ↔ 0 ≤ v ∧ v ≤ 65535 := decide_eq_true_iff
theorem isUnsigned5_iff (v : Int) : isUnsigned5 v = true ↔ 0 ≤ v ∧ v ≤ 31 := decide_eq_true_iff

theorem signedImm_ofInt {v : Int} (legal : isSigned16 v = true) : signedImm (BitVec.ofInt 16 v) = v := by
  rw [isSigned16_iff] at legal
  rw [signedImm, BitVec.toInt_ofInt, Int.bmod_eq_of_le (by omega) (by omega)]

theorem unsignedImm_ofInt {v : Int} (legal : isUnsigned16 v = true) : unsignedImm (BitVec.ofInt 16 v) = v := by
  rw [isUnsigned16_iff] at legal
  rw [unsignedImm, BitVec.toNat_ofInt]
  omega

theorem shiftImm_ofInt {v : Int} (legal : isUnsigned5 v = true) : shiftImm (BitVec.ofInt 5 v) = v := by
  rw [isUnsigned5_iff] at legal
  rw [shiftImm, BitVec.toNat_ofInt]
  omega

theorem isSigned16_signedImm (f : BitVec 16) : isSigned16 (signedImm f) = true := by
  have low := f.le_toInt
  have high := f.toInt_lt
  rw [isSigned16_iff, signedImm]
  omega

theorem isUnsigned16_unsignedImm (f : BitVec 16) : isUnsigned16 (unsignedImm f) = true := by
  rw [isUnsigned16_iff, unsignedImm]
  omega

theorem isUnsigned5_shiftImm (f : BitVec 5) : isUnsigned5 (shiftImm f) = true := by
  rw [isUnsigned5_iff, shiftImm]
  omega

@[simp] theorem ofInt_signedImm (f : BitVec 16) : BitVec.ofInt 16 (signedImm f) = f := BitVec.ofInt_toInt

@[simp] theorem ofInt_unsignedImm (f : BitVec 16) : BitVec.ofInt 16 (unsignedImm f) = f := by
  simp [unsignedImm]

@[simp] theorem ofInt_shiftImm (f : BitVec 5) : BitVec.ofInt 5 (shiftImm f) = f := by
  simp [shiftImm]

/-! ## Targets and their fields (R107, R110) -/

theorem branchTarget_eq (A : Word) (f : BitVec 16) : branchTarget A f = A + 4 + uint32 (4 * signedImm f) := by
  unfold branchTarget uint32
  rw [BitVec.ofInt_add, BitVec.ofInt_add, BitVec.ofInt_natCast, BitVec.ofNat_toNat, BitVec.setWidth_eq]
  rfl

/-- The distance of a branch target is its offset field, in words. -/
theorem branchDistance_branchTarget (A : Word) (f : BitVec 16) : branchDistance A (branchTarget A f) = 4 * signedImm f := by
  have range := (isSigned16_iff _).mp (isSigned16_signedImm f)
  have difference : A + 4 + uint32 (4 * signedImm f) - A - 4 = uint32 (4 * signedImm f) := by ring
  rw [branchTarget_eq, branchDistance, difference, Machine.sint32_uint32_of_fits (by omega) (by omega)]

theorem branchReaches_branchTarget (A : Word) (f : BitVec 16) : branchReaches A (branchTarget A f) = true := by
  have words : 4 * signedImm f / 4 = signedImm f := by omega
  rw [branchReaches, branchDistance_branchTarget, words, isSigned16_signedImm, Bool.and_true, decide_eq_true_iff]
  omega

@[simp] theorem branchField_branchTarget (A : Word) (f : BitVec 16) : branchField A (branchTarget A f) = f := by
  have words : 4 * signedImm f / 4 = signedImm f := by omega
  rw [branchField, branchDistance_branchTarget, words, ofInt_signedImm]

theorem branchTarget_branchField {A target : Word} (reaches : branchReaches A target = true) :
    branchTarget A (branchField A target) = target := by
  obtain ⟨words, legal⟩ := Bool.and_eq_true_iff.mp reaches
  have words := of_decide_eq_true words
  have distance : 4 * (branchDistance A target / 4) = branchDistance A target := by omega
  have pattern : uint32 (branchDistance A target) = target - A - 4 := BitVec.ofInt_toInt
  rw [branchTarget_eq, branchField, signedImm_ofInt legal, distance, pattern]
  ring

theorem jumpReaches_iff (A target : Word) :
    jumpReaches A target = true ↔ target.extractLsb' 0 2 = 0 ∧ target.extractLsb' 28 4 = (A + 4).extractLsb' 28 4 := by
  unfold jumpReaches
  rw [Bool.and_eq_true_iff, decide_eq_true_iff, decide_eq_true_iff]

@[simp] theorem jumpTarget_index (A : Word) (f : BitVec 26) : (jumpTarget A f).extractLsb' 2 26 = f := by
  rw [jumpTarget, BitVec.extractLsb'_append_eq_of_le (by decide), BitVec.extractLsb'_append_eq_of_add_le (by decide)]
  exact BitVec.extractLsb'_eq_self

theorem jumpReaches_jumpTarget (A : Word) (f : BitVec 26) : jumpReaches A (jumpTarget A f) = true := by
  rw [jumpReaches_iff, jumpTarget]
  exact ⟨BitVec.extractLsb'_append_eq_right, by
    rw [BitVec.extractLsb'_append_eq_of_le (by decide), BitVec.extractLsb'_append_eq_of_le (by decide)]
    exact BitVec.extractLsb'_eq_self⟩

theorem jumpTarget_index_of_reaches {A target : Word} (reaches : jumpReaches A target = true) :
    jumpTarget A (target.extractLsb' 2 26) = target := by
  obtain ⟨low, region⟩ := (jumpReaches_iff A target).mp reaches
  have parts : target.extractLsb' 28 4 ++ target.extractLsb' 2 26 ++ target.extractLsb' 0 2 = target := by
    rw [BitVec.extractLsb'_append_extractLsb'_eq_extractLsb' (by decide : 28 = 2 + 26),
      BitVec.extractLsb'_append_extractLsb'_eq_extractLsb' (by decide : 2 = 0 + 2)]
    exact BitVec.extractLsb'_eq_self
  rw [jumpTarget, ← region]
  rwa [low] at parts

/-! ## A term's word decodes to the term -/

/-- The encoder drops and flips no bit of an opcode (R106, R108). -/
theorem Instr.mnemonic_matchesWord_word (A : Word) : ∀ i : Instr, i.mnemonic.matchesWord (i.word A) = true
  | .add rd rs rt => Laws.EncodesToItsRow.add rd rs rt A
  | .addu rd rs rt => Laws.EncodesToItsRow.addu rd rs rt A
  | .addi rt rs imm => Laws.EncodesToItsRow.addi rt rs imm A
  | .sub rd rs rt => Laws.EncodesToItsRow.sub rd rs rt A
  | .mult rs rt => Laws.EncodesToItsRow.mult rs rt A
  | .sll rd rt sa => Laws.EncodesToItsRow.sll rd rt sa A
  | .srl rd rt sa => Laws.EncodesToItsRow.srl rd rt sa A
  | .srav rd rt rs => Laws.EncodesToItsRow.srav rd rt rs A
  | .slt rd rs rt => Laws.EncodesToItsRow.slt rd rs rt A
  | .lb rt offset base => Laws.EncodesToItsRow.lb rt offset base A
  | .lbu rt offset base => Laws.EncodesToItsRow.lbu rt offset base A
  | .sh rt offset base => Laws.EncodesToItsRow.sh rt offset base A
  | .sw rt offset base => Laws.EncodesToItsRow.sw rt offset base A
  | .lui rt imm => Laws.EncodesToItsRow.lui rt imm A
  | .j target => Laws.EncodesToItsRow.j target A
  | .jal target => Laws.EncodesToItsRow.jal target A
  | .bgez rs target => Laws.EncodesToItsRow.bgez rs target A
  | .bgezal rs target => Laws.EncodesToItsRow.bgezal rs target A
  | .blez rs target => Laws.EncodesToItsRow.blez rs target A
  | .clz rd rs => Laws.EncodesToItsRow.clz rd rs A
  | .clo rd rs => Laws.EncodesToItsRow.clo rd rs A

/-- The encoder puts rd in the rt field of a count (R108). -/
theorem Instr.countOk_word (A : Word) (i : Instr) : i.mnemonic.CountOk (i.word A) := by
  intro needs
  cases i with
  | clz rd rs | clo rd rs => rw [Instr.word, rtField_rType, rdField_rType]
  | _ => cases needs

/-- The fields of an encodable term's word stand for the term's operands (R107, R110). -/
theorem Instr.term_word {A : Word} {i : Instr} (encodable : i.encodableAt A = true) :
    i.mnemonic.term A (i.word A) = i := by
  obtain ⟨legal, reaches⟩ := Bool.and_eq_true_iff.mp encodable
  cases i with
  | add | addu | sub | mult | srav | slt | clz | clo => simp [Instr.mnemonic, Instr.word, Mnemonic.term]
  | addi | lb | lbu | sh | sw => simp [Instr.mnemonic, Instr.word, Mnemonic.term, signedImm_ofInt legal]
  | lui => simp [Instr.mnemonic, Instr.word, Mnemonic.term, unsignedImm_ofInt legal]
  | sll | srl => simp [Instr.mnemonic, Instr.word, Mnemonic.term, shiftImm_ofInt legal]
  | j | jal => simp [Instr.mnemonic, Instr.word, Mnemonic.term, jumpTarget_index_of_reaches reaches]
  | bgez | bgezal | blez => simp [Instr.mnemonic, Instr.word, Mnemonic.term, branchTarget_branchField reaches]

theorem encode_eq_some_iff (A w : Word) (i : Instr) : encode A i = some w ↔ i.encodableAt A = true ∧ i.word A = w := by
  unfold encode
  rw [Option.ite_none_right_eq_some, Option.some_inj]

/-- Settles O8: the word of a term lies in the term's row, and its fields stand for the term's operands. -/
theorem decodeGivesTheEncodedTermBack : Obligations.DecodeGivesTheEncodedTermBack := by
  unfold Obligations.DecodeGivesTheEncodedTermBack
  intro A i
  simp only [encode_eq_some_iff]
  refine ⟨⟨fun encodable => ⟨_, encodable, rfl⟩, fun ⟨_, encodable, _⟩ => encodable⟩, ?_⟩
  rintro w ⟨encodable, rfl⟩
  exact (decode_eq_ok_iff A _ i).mpr
    ⟨i.mnemonic, i.mnemonic_matchesWord_word A, i.countOk_word A, (Instr.term_word encodable).symm⟩

/-! ## A decoded term encodes to the word -/

/-- The fields of R105 that hold no operand. -/
def opField (w : Word) : BitVec 6 := w.extractLsb' 26 6
def functField (w : Word) : BitVec 6 := w.extractLsb' 0 6

theorem rType_fields (w : Word) :
    rType (opField w) (rsField w) (rtField w) (rdField w) (saField w) (functField w) = w := by
  unfold rType opField rsField rtField rdField saField functField
  rw [BitVec.extractLsb'_append_extractLsb'_eq_extractLsb' (by decide : 26 = 21 + 5),
    BitVec.extractLsb'_append_extractLsb'_eq_extractLsb' (by decide : 21 = 16 + 5),
    BitVec.extractLsb'_append_extractLsb'_eq_extractLsb' (by decide : 16 = 11 + 5),
    BitVec.extractLsb'_append_extractLsb'_eq_extractLsb' (by decide : 11 = 6 + 5),
    BitVec.extractLsb'_append_extractLsb'_eq_extractLsb' (by decide : 6 = 0 + 6)]
  exact BitVec.extractLsb'_eq_self

theorem iType_fields (w : Word) : iType (opField w) (rsField w) (rtField w) (immField w) = w := by
  unfold iType opField rsField rtField immField
  rw [BitVec.extractLsb'_append_extractLsb'_eq_extractLsb' (by decide : 26 = 21 + 5),
    BitVec.extractLsb'_append_extractLsb'_eq_extractLsb' (by decide : 21 = 16 + 5),
    BitVec.extractLsb'_append_extractLsb'_eq_extractLsb' (by decide : 16 = 0 + 16)]
  exact BitVec.extractLsb'_eq_self

theorem jType_fields (w : Word) : jType (opField w) (indexField w) = w := by
  unfold jType opField indexField
  rw [BitVec.extractLsb'_append_extractLsb'_eq_extractLsb' (by decide : 26 = 0 + 26)]
  exact BitVec.extractLsb'_eq_self

theorem rType_eq {w : Word} {op funct : BitVec 6} {rs rt rd sa : BitVec 5} (hop : opField w = op) (hrs : rsField w = rs)
    (hrt : rtField w = rt) (hrd : rdField w = rd) (hsa : saField w = sa) (hfunct : functField w = funct) :
    rType op rs rt rd sa funct = w := by
  rw [← hop, ← hrs, ← hrt, ← hrd, ← hsa, ← hfunct, rType_fields]

theorem iType_eq {w : Word} {op : BitVec 6} {rs rt : BitVec 5} {imm : BitVec 16} (hop : opField w = op)
    (hrs : rsField w = rs) (hrt : rtField w = rt) (himm : immField w = imm) : iType op rs rt imm = w := by
  rw [← hop, ← hrs, ← hrt, ← himm, iType_fields]

theorem jType_eq {w : Word} {op : BitVec 6} {index : BitVec 26} (hop : opField w = op) (hindex : indexField w = index) :
    jType op index = w := by
  rw [← hop, ← hindex, jType_fields]

/-- A field that a row fixes whole has the row's value in every word of the row (R108). -/
theorem Mnemonic.fixedField {m : Mnemonic} {w : Word} (hm : m.matchesWord w = true) {lo n : Nat} {v : BitVec n}
    (fixed : m.mask.extractLsb' lo n = BitVec.allOnes n := by rfl) (value : m.pattern.extractLsb' lo n = v := by rfl) :
    w.extractLsb' lo n = v := by
  rw [← value, ← (m.matchesWord_iff w).mp hm, BitVec.extractLsb'_and, fixed, BitVec.and_allOnes]

/-- The word of a row's term is the word its operands were taken from: they fill the fields that the row leaves free. -/
theorem Mnemonic.word_term {m : Mnemonic} {w : Word} (A : Word) (hm : m.matchesWord w = true) (count : m.CountOk w) :
    (m.term A w).word A = w := by
  cases m <;> simp only [Mnemonic.term, Instr.word, regBits_regOf, ofInt_signedImm, ofInt_unsignedImm, ofInt_shiftImm,
    branchField_branchTarget, jumpTarget_index]
  case add | addu | sub | srav | slt => exact rType_eq (fixedField hm) rfl rfl rfl (fixedField hm) (fixedField hm)
  case mult => exact rType_eq (fixedField hm) rfl rfl (fixedField hm) (fixedField hm) (fixedField hm)
  case sll | srl => exact rType_eq (fixedField hm) (fixedField hm) rfl rfl rfl (fixedField hm)
  case clz | clo => exact rType_eq (fixedField hm) rfl (count rfl) rfl (fixedField hm) (fixedField hm)
  case addi | lb | lbu | sh | sw => exact iType_eq (fixedField hm) rfl rfl rfl
  case lui => exact iType_eq (fixedField hm) (fixedField hm) rfl rfl
  case bgez | bgezal | blez => exact iType_eq (fixedField hm) rfl (fixedField hm) rfl
  case j | jal => exact jType_eq (fixedField hm) rfl

/-- A decoded immediate is in its range and a decoded target within reach (R107, R110). -/
theorem Mnemonic.encodableAt_term (m : Mnemonic) (A w : Word) : (m.term A w).encodableAt A = true := by
  cases m with
  | add | addu | sub | mult | srav | slt | clz | clo => rfl
  | addi | lb | lbu | sh | sw => exact Bool.and_eq_true_iff.mpr ⟨isSigned16_signedImm _, rfl⟩
  | lui => exact Bool.and_eq_true_iff.mpr ⟨isUnsigned16_unsignedImm _, rfl⟩
  | sll | srl => exact Bool.and_eq_true_iff.mpr ⟨isUnsigned5_shiftImm _, rfl⟩
  | j | jal => exact jumpReaches_jumpTarget A _
  | bgez | bgezal | blez => exact branchReaches_branchTarget A _

/-- Settles O9: a decoded term is encodable, and its operands fill the fields they came from. -/
theorem encodeGivesTheDecodedWordBack : Obligations.EncodeGivesTheDecodedWordBack := by
  unfold Obligations.EncodeGivesTheDecodedWordBack
  intro A w i decodes
  obtain ⟨m, hm, count, rfl⟩ := (decode_eq_ok_iff A w i).mp decodes
  exact (encode_eq_some_iff A w _).mpr ⟨m.encodableAt_term A w, Mnemonic.word_term A hm count⟩

theorem encodable_of_decode {A w : Word} {i : Instr} (decodes : decode A w = .ok i) : i.encodableAt A = true :=
  ((encode_eq_some_iff A w i).mp (encodeGivesTheDecodedWordBack A w i decodes)).1

theorem wf_of_decode {A w : Word} {i : Instr} (decodes : decode A w = .ok i) : i.wf = true :=
  (Bool.and_eq_true_iff.mp (encodable_of_decode decodes)).1

/-- Settles O7: the fields of each word, read by evaluation. -/
theorem sampleWordsDecode : Obligations.SampleWordsDecode :=
  ⟨rfl, rfl, rfl, rfl, rfl, rfl, rfl, rfl, rfl, rfl, rfl, rfl⟩

end Sys2Proof
end

section
/-! PROOFS. What one instruction and one step can change, from the shapes of `Effect`: the commit or the fault (10_state.md R48;
60_exceptions.md R227 to R229, R233), hi and lo (10_state.md R37), pc (R36, R53), memory (20_memory.md R71, R83) and the launch
parameters (10_state.md R39, R40, R42). -/

namespace Sys2Proof.Machine

/-! ## The launch parameters -/

theorem SameRun.refl (s : State) : SameRun s s := ⟨rfl, rfl, rfl, rfl, rfl⟩

theorem SameRun.trans {s t u : State} (first : SameRun s t) (second : SameRun t u) : SameRun s u where
  endian := second.endian.trans first.endian
  labels := second.labels.trans first.labels
  progBase := second.progBase.trans first.progBase
  prog := second.prog.trans first.prog
  memInit := second.memInit.trans first.memInit

theorem State.sameRun_advance (s : State) : SameRun s s.advance := ⟨rfl, rfl, rfl, rfl, rfl⟩

theorem memWrite_init {e : Endian} {m m' : Memory} {a : Word} {w : Width} {v : Int} (wrote : memWrite e m a w v = some m') :
    m'.init = m.init := by
  obtain ⟨-, rfl⟩ := memWrite_eq_some.mp wrote
  exact Memory.writeBytes_init ..

section
variable {i : Instr} {s t : State}

theorem Effect.sameRun (effect : Effect i s t) : SameRun s t := by
  cases effect with
  | register dest v => exact s.sameRun_setReg dest v
  | product => exact (sameData_writeProduct s _).run
  | stored _ _ _ _ _ _ _ wrote => exact ⟨rfl, rfl, rfl, rfl, memWrite_init wrote⟩
  | fallsThrough => exact SameRun.refl s
  | jumps target => exact (s.jumped_jumpTo target).data.run
  | links target => exact s.sameRun_linkTo target
  | badImmediate | overflow | misaligned => exact (raised_takeFault s _ _).data.run

theorem step_sameRun (stepped : step s = .next t) : SameRun s t := by
  obtain ⟨-, rfl⟩ | ⟨_, -, -, rfl⟩ | ⟨_, -, -, ran⟩ := step_running (running_of_step stepped) stepped
  · exact ⟨rfl, rfl, rfl, rfl, rfl⟩
  · exact ⟨rfl, rfl, rfl, rfl, rfl⟩
  · exact s.sameRun_advance.trans (effect_of_exec ran).sameRun

/-! ## The commit or the fault -/

theorem Effect.keeps_status_or_raises (effect : Effect i s t) :
    t.status = s.status ∨ ∃ kind addr, t = takeFault s kind s.instrAddress addr := by
  cases effect with
  | register dest v => exact .inl (s.setReg_status dest v)
  | links target => exact .inl (s.linkTo_status target)
  | product | stored | fallsThrough | jumps => exact .inl rfl
  | badImmediate | overflow | misaligned => exact .inr ⟨_, _, rfl⟩

/-- What makes an instruction raise a fault of a kind (60_exceptions.md R227 to R229); the fetch kinds are not an instruction's. -/
def FaultCause (i : Instr) (s : State) : FaultKind → Prop
  | .invalidImmediate => i.wf = false
  | .arithmeticOverflow => i.wf = true ∧ ∃ v, exactResult s i = some v ∧ (v < -2 ^ 31 ∨ 2 ^ 31 - 1 < v)
  | .memoryAlignmentError => i.wf = true ∧ ∃ w rt offset base, storeOf i = some (w, rt, offset, base) ∧
      (effectiveAddress s base offset).toNat % w.bytes ≠ 0
  | .instructionFetchError => False
  | .reservedInstruction => False

theorem Effect.faultCause {rec : FaultRecord} (effect : Effect i s t) (running : s.status = .running)
    (faulted : t.status = .faulted rec) : FaultCause i s rec.kind := by
  cases effect with
  | register | product | stored | fallsThrough | jumps | links => simp [running] at faulted
  | badImmediate illegal =>
    cases faulted
    exact illegal
  | overflow v wf is out =>
    cases faulted
    rw [Bool.eq_false_iff, ne_eq, fitsSigned32_iff] at out
    exact ⟨wf, v, is, by omega⟩
  | misaligned w rt base offset wf is bad =>
    cases faulted
    exact ⟨wf, w, rt, offset, base, is, not_aligned_iff.mp bad⟩

theorem wf_of_controlFlow (flow : controlFlow i = true) : i.wf = true := by
  cases i with
  | j | jal | bgez | bgezal | blez => rfl
  | _ => cases flow

theorem exec_of_exactResult {v : Int} (wf : i.wf = true) (is : exactResult s i = some v) :
    ∃ dest, exec i s = writeSigned s dest v := by
  cases i with
  | add rd rs rt | sub rd rs rt =>
    cases is
    exact ⟨rd, rfl⟩
  | addi rt rs imm =>
    cases is
    obtain ⟨low, high⟩ := (isSigned16_iff imm).mp wf
    exact ⟨rt, exec_addi_of_legal low high rt rs s⟩
  | _ => cases is

theorem exec_of_storeOf {w : Width} {rt base : RegNum} {offset : Int} (is : storeOf i = some (w, rt, offset, base)) :
    exec i s = store s w rt offset base ∧ i.wf = isSigned16 offset := by
  cases i with
  | sh | sw =>
    cases is
    exact ⟨rfl, rfl⟩
  | _ => cases is

/-- An instruction with a cause raises the fault: an immediate out of range leaves no other shape of `Effect`. -/
theorem raised_of_faultCause {kind : FaultKind} (cause : FaultCause i s kind) :
    ∃ t addr, exec i s = .next t ∧ Raised s t kind addr := by
  cases kind with
  | invalidImmediate =>
    have illegal : i.wf ≠ true := Bool.eq_false_iff.mp cause
    obtain ⟨t, ran, effect⟩ := exec_effect i s
    cases effect with
    | badImmediate => exact ⟨_, _, ran, raised_takeFault s _ _⟩
    | register _ _ wf | stored _ _ _ _ _ wf | overflow _ wf | misaligned _ _ _ _ wf => exact absurd wf illegal
    | fallsThrough flow | jumps _ flow | links _ flow => exact absurd (wf_of_controlFlow flow) illegal
    | product _ _ is => exact absurd (is ▸ rfl) illegal
  | arithmeticOverflow =>
    obtain ⟨wf, v, is, outside⟩ := cause
    obtain ⟨dest, ran⟩ := exec_of_exactResult wf is
    obtain ⟨t, raises, raised⟩ := writeSigned_raises outside s dest
    exact ⟨t, _, ran.trans raises, raised⟩
  | memoryAlignmentError =>
    obtain ⟨wf, w, rt, offset, base, is, misaligned⟩ := cause
    obtain ⟨ran, legal⟩ := exec_of_storeOf (s := s) is
    obtain ⟨low, high⟩ := (isSigned16_iff offset).mp (legal ▸ wf)
    obtain ⟨t, raises, raised⟩ := store_raises low high s w rt base misaligned
    exact ⟨t, _, ran.trans raises, raised⟩
  | instructionFetchError | reservedInstruction => exact cause.elim

theorem faults_iff_faultCause (running : s.status = .running) (ran : exec i s = .next t) (kind : FaultKind) :
    (∃ rec, t.status = .faulted rec ∧ rec.kind = kind) ↔ FaultCause i s kind := by
  constructor
  · rintro ⟨rec, faulted, rfl⟩
    exact (effect_of_exec ran).faultCause running faulted
  · intro cause
    obtain ⟨u, addr, raises, raised⟩ := raised_of_faultCause cause
    cases ran.symm.trans raises
    exact ⟨_, raised.status, rfl⟩

/-! ## hi and lo -/

theorem Effect.mult_or_keeps_hi_lo (effect : Effect i s t) :
    (∃ rs rt, i = .mult rs rt) ∨ (t.hi = s.hi ∧ t.lo = s.lo) := by
  cases effect with
  | product rs rt is => exact .inl ⟨rs, rt, is⟩
  | register dest v => exact .inr ⟨s.setReg_hi dest v, s.setReg_lo dest v⟩
  | links target => exact .inr ⟨s.linkTo_hi target, s.linkTo_lo target⟩
  | stored | fallsThrough | jumps | badImmediate | overflow | misaligned => exact .inr ⟨rfl, rfl⟩

theorem step_mult_or_keeps_hi_lo (stepped : step s = .next t) :
    (∃ rs rt, s.fetch s.pc = .ok (.mult rs rt)) ∨ (t.hi = s.hi ∧ t.lo = s.lo) := by
  obtain ⟨-, rfl⟩ | ⟨_, -, -, rfl⟩ | ⟨i, -, fetched, ran⟩ := step_running (running_of_step stepped) stepped
  · exact .inr ⟨rfl, rfl⟩
  · exact .inr ⟨rfl, rfl⟩
  · refine (effect_of_exec ran).mult_or_keeps_hi_lo.imp_left ?_
    rintro ⟨rs, rt, rfl⟩
    exact ⟨rs, rt, fetched⟩

/-! ## pc -/

theorem controlFlow_eq_isSome_targetAddress (i : Instr) : controlFlow i = (targetAddress i).isSome := by
  cases i <;> rfl

theorem exec_pc (ran : exec i s = .next t) :
    t.pc = s.pc ∨ targetAddress i = some t.pc ∨ ∃ kind addr, t = takeFault s kind s.instrAddress addr := by
  cases flow : targetAddress i with
  | some target =>
    obtain ⟨u, transfers, -, pc⟩ := exec_transfer_pc flow s
    cases ran.symm.trans transfers
    exact pc.symm.imp_right fun taken => .inl (congrArg some taken.symm)
  | none =>
    have noTransfer : controlFlow i ≠ true := by rw [controlFlow_eq_isSome_targetAddress, flow]; decide
    cases effect_of_exec ran with
    | register dest v => exact .inl (s.setReg_pc dest v)
    | product | stored => exact .inl rfl
    | fallsThrough transfer | jumps _ transfer | links _ transfer => exact absurd transfer noTransfer
    | badImmediate | overflow | misaligned => exact .inr (.inr ⟨_, _, rfl⟩)

theorem targetAddress_aligned_of_encodable {A target : Word} (aligned : A.toNat % 4 = 0)
    (encodable : i.encodableAt A = true) (flow : targetAddress i = some target) : target.toNat % 4 = 0 := by
  obtain ⟨-, reaches⟩ := Bool.and_eq_true_iff.mp encodable
  cases i with
  | j | jal =>
    cases flow
    have low := congrArg BitVec.toNat ((jumpReaches_iff A target).mp reaches).1
    rwa [BitVec.extractLsb'_toNat, Nat.shiftRight_zero] at low
  | bgez | bgezal | blez =>
    cases flow
    have words := of_decide_eq_true (Bool.and_eq_true_iff.mp reaches).1
    rw [branchDistance, sint32, BitVec.toInt_eq_toNat_cond] at words
    split at words <;> bv_omega
  | _ => cases flow

/-! ## Memory -/

theorem Effect.stores_or_keeps_mem (effect : Effect i s t) :
    t.mem = s.mem ∨ ∃ w rt offset base, storeOf i = some (w, rt, offset, base) ∧
      memWrite s.endian s.mem (effectiveAddress s base offset) w ((s.getReg rt).toNat : Int) = some t.mem := by
  cases effect with
  | stored w rt base offset m _ is wrote => exact .inr ⟨w, rt, offset, base, is, wrote⟩
  | register dest v => exact .inl (s.setReg_mem dest v)
  | links target => exact .inl (s.linkTo_mem target)
  | product | fallsThrough | jumps | badImmediate | overflow | misaligned => exact .inl rfl

/-! ## The invariant -/

theorem Effect.keeps_mem_wf (effect : Effect i s t) (canonical : s.mem.wf) : t.mem.wf := by
  obtain keeps | ⟨_, _, _, _, -, wrote⟩ := effect.stores_or_keeps_mem
  · rwa [keeps]
  · exact (memWrite_spec canonical wrote).2.1

theorem Effect.gpr_zero (effect : Effect i s t) : t.gpr[0] = s.gpr[0] := by
  cases effect with
  | register dest v => exact s.setReg_gpr_zero dest v
  | links target => exact s.linkTo_gpr_zero target
  | product | stored | fallsThrough | jumps | badImmediate | overflow | misaligned => rfl

theorem State.statusOk_of_running (running : s.status = .running) : s.statusOk := by
  unfold State.statusOk
  rw [running]
  trivial

theorem Effect.statusOk (effect : Effect i s t) (running : s.status = .running) : t.statusOk := by
  obtain status | ⟨kind, addr, rfl⟩ := effect.keeps_status_or_raises
  · exact State.statusOk_of_running (status.trans running)
  · obtain ⟨-, -, addrOk, -⟩ := effect.takes_fault running rfl
    exact ⟨rfl, addrOk⟩

/-- No state follows one that has ended (10_state.md R41). -/
theorem eq_of_reaches_of_ended (ended : s.Ended) (reached : Reaches s t) : t = s := by
  induction reached with
  | start => rfl
  | next _ stepped ih => exact absurd (ih ▸ running_of_step stepped) ended

end

/-! ## The statements about every step and every run -/

/-- Settles O52: a fetch reads PROG_BASE and PROG alone, which no step changes. -/
theorem noStepChangesTheProgramOrTheLaunch : Obligations.NoStepChangesTheProgramOrTheLaunch := by
  unfold Obligations.NoStepChangesTheProgramOrTheLaunch
  intro s t stepped
  have same := step_sameRun stepped
  exact ⟨same, State.progEnd_congr same.progBase same.prog, State.fetch_congr same.progBase same.prog⟩

/-- Settles O44: each shape of `Effect` keeps the status or is a fault taken. -/
theorem everyInstructionCommitsOrRaises : Obligations.EveryInstructionCommitsOrRaises := by
  unfold Obligations.EveryInstructionCommitsOrRaises
  intro i s
  obtain ⟨t, ran, effect⟩ := exec_effect i s
  refine ⟨t, ran, ?_⟩
  obtain status | ⟨kind, addr, rfl⟩ := effect.keeps_status_or_raises
  · exact .inl ⟨status, effect.sameRun⟩
  · exact .inr ⟨kind, addr, raised_takeFault s kind addr⟩

/-- Settles O45: each kind is raised exactly on its cause, and the fetch kinds have none. -/
theorem eachFaultHasItsInstructions : Obligations.EachFaultHasItsInstructions := by
  unfold Obligations.EachFaultHasItsInstructions
  intro i s t running ran
  have kinds := faults_iff_faultCause running ran
  exact ⟨kinds .invalidImmediate, kinds .arithmeticOverflow, kinds .memoryAlignmentError, fun rec faulted =>
    ⟨fun fetch => (kinds .instructionFetchError).mp ⟨rec, faulted, fetch⟩,
      fun reserved => (kinds .reservedInstruction).mp ⟨rec, faulted, reserved⟩⟩⟩

/-- Settles O12: the cause of InvalidImmediate is an immediate out of range, which no decoded term has. -/
theorem decodedTermsNeverRaiseInvalidImmediate : Obligations.DecodedTermsNeverRaiseInvalidImmediate := by
  unfold Obligations.DecodedTermsNeverRaiseInvalidImmediate
  intro A w i s t decodes running ran rec faulted kind
  have illegal := (faults_iff_faultCause running ran .invalidImmediate).mp ⟨rec, faulted, kind⟩
  exact Bool.eq_false_iff.mp illegal (wf_of_decode decodes)

/-- Settles O47: a step that is no `mult` keeps both. -/
theorem onlyMultWritesHiAndLo : Obligations.OnlyMultWritesHiAndLo := by
  unfold Obligations.OnlyMultWritesHiAndLo
  intro s t stepped changed
  refine (step_mult_or_keeps_hi_lo stepped).resolve_right fun ⟨hi, lo⟩ => ?_
  exact changed.elim (absurd hi) (absurd lo)

/-- Settles O50: a step that leaves the run Running executed an instruction that took no fault. -/
theorem onlyControlFlowLeavesTheSequence : Obligations.OnlyControlFlowLeavesTheSequence := by
  unfold Obligations.OnlyControlFlowLeavesTheSequence
  intro s t stepped running leaves
  obtain ⟨-, rfl⟩ | ⟨_, -, -, rfl⟩ | ⟨i, -, fetched, ran⟩ := step_running (running_of_step stepped) stepped
  · cases running
  · cases running
  · obtain falls | taken | ⟨_, _, rfl⟩ := exec_pc ran
    · exact absurd falls leaves
    · exact ⟨i, fetched, taken⟩
    · cases running

/-- Settles O55: the targets a word can name are 4-aligned, and every other pc is the next address or the old one. -/
theorem binaryLayerKeepsThePcAligned : Obligations.BinaryLayerKeepsThePcAligned := by
  unfold Obligations.BinaryLayerKeepsThePcAligned
  intro s t layer aligned stepped
  obtain ⟨-, rfl⟩ | ⟨_, -, -, rfl⟩ | ⟨i, -, fetched, ran⟩ := step_running (running_of_step stepped) stepped
  · exact aligned
  · exact aligned
  · obtain falls | taken | ⟨_, _, rfl⟩ := exec_pc ran
    · rw [falls, State.advance_pc]
      bv_omega
    · obtain ⟨w, decodes⟩ := decode_of_fetch layer fetched
      exact targetAddress_aligned_of_encodable aligned (encodable_of_decode decodes) taken
    · rwa [takeFault_pc, State.advance_instrAddress]

/-- Settles O51: a byte outside the access of a store reads as before. -/
theorem onlyStoresChangeMemory : Obligations.OnlyStoresChangeMemory := by
  unfold Obligations.OnlyStoresChangeMemory
  intro s t b canonical stepped changed
  obtain ⟨-, rfl⟩ | ⟨_, -, -, rfl⟩ | ⟨i, -, fetched, ran⟩ := step_running (running_of_step stepped) stepped
  · exact absurd rfl changed
  · exact absurd rfl changed
  · obtain keeps | ⟨w, rt, offset, base, is, wrote⟩ := (effect_of_exec ran).stores_or_keeps_mem
    · exact absurd (by rw [keeps, State.advance_mem]) changed
    · have inside := mt (read_outside_of_memWrite canonical wrote) changed
      exact ⟨i, w, rt, offset, base, fetched, is, not_or.mp inside |>.imp Nat.le_of_not_lt Nat.lt_of_not_le⟩

/-- Settles O53: Execute keeps each clause by the shapes of `Effect`; a halt and a fetch fault change the status alone, as it should
be at their pc. -/
theorem stepKeepsTheInvariant : Obligations.StepKeepsTheInvariant := by
  unfold Obligations.StepKeepsTheInvariant
  intro s t inv stepped
  obtain ⟨memory, zero, aligned, -⟩ := inv
  have running := running_of_step stepped
  obtain ⟨atEnd, rfl⟩ | ⟨kind, -, failed, rfl⟩ | ⟨i, -, -, ran⟩ := step_running running stepped
  case inl => exact ⟨memory, zero, aligned, atEnd⟩
  case inr.inl => exact ⟨memory, zero, aligned, rfl, (addrOk_of_fetch_error failed s.pc).1⟩
  case inr.inr =>
    have effect := effect_of_exec ran
    exact ⟨effect.keeps_mem_wf memory, effect.gpr_zero.trans zero, effect.sameRun.progBase ▸ aligned,
      effect.statusOk running⟩

/-- Settles O54: O53 along the run; what is reached from a state that has ended is that state. -/
theorem runsKeepTheInvariantUntilTheyEnd : Obligations.RunsKeepTheInvariantUntilTheyEnd := by
  unfold Obligations.RunsKeepTheInvariantUntilTheyEnd
  intro s t ⟨inv, _⟩ reached
  have kept : t.Inv ∧ SameRun s t := by
    induction reached with
    | start => exact ⟨inv, SameRun.refl s⟩
    | next _ stepped ih => exact ⟨stepKeepsTheInvariant _ _ ih.1 stepped, ih.2.trans (step_sameRun stepped)⟩
  exact ⟨kept.1, kept.2, fun u more ended => eq_of_reaches_of_ended ended more⟩

end Sys2Proof.Machine
end

section
/-! PROOFS. What Execute does not look at: an update of the state that no instruction reads or overwrites commutes with it. So hi
and lo influence nothing (10_state.md R37), ENDIAN influences stores alone (20_memory.md R79), and a program of words runs like the
same program of terms (30_encoding.md R4, R110, R112). -/

namespace Sys2Proof.Machine

/-! ## The step of a run that has ended (log entry 6) -/

theorem step_of_halted {s : State} (halted : s.status = .halted) : step s = .fault .alreadyHalted := by
  unfold step
  rw [halted]

theorem step_of_faulted {s : State} {rec : FaultRecord} (faulted : s.status = .faulted rec) :
    step s = .fault (.alreadyFaulted rec) := by
  unfold step
  rw [faulted]

/-! ## Updates that Execute does not see -/

/-- An update that leaves registers, pc, memory and status as they are, and can be made before or after they are written. -/
structure Unseen (f : State → State) : Prop where
  getReg : ∀ s r, (f s).getReg r = s.getReg r
  pc : ∀ s, (f s).pc = s.pc
  mem : ∀ s, (f s).mem = s.mem
  status : ∀ s, (f s).status = s.status
  setReg : ∀ s r v, (f s).setReg r v = f (s.setReg r v)
  jumpTo : ∀ s a, (f s).jumpTo a = f (s.jumpTo a)
  withMem : ∀ s m, { f s with mem := m } = f { s with mem := m }
  withStatus : ∀ s x, { f s with status := x } = f { s with status := x }

/-- The fields hi, lo, ENDIAN and PROG are apart from all that `Unseen` speaks of. -/
theorem unseen_of_fields (hi lo : Word → Word) (endian : Endian → Endian) (prog : Program → Program) :
    Unseen fun s => { s with hi := hi s.hi, lo := lo s.lo, endian := endian s.endian, prog := prog s.prog } where
  getReg _ _ := rfl
  pc _ := rfl
  mem _ := rfl
  status _ := rfl
  setReg s r v := by unfold State.setReg; split <;> rfl
  jumpTo _ _ := rfl
  withMem _ _ := rfl
  withStatus _ _ := rfl

theorem unseen_prog (p : Program) : Unseen fun s => { s with prog := p } :=
  unseen_of_fields id id id fun _ => p

theorem unseen_hi_lo (hi lo : Word) : Unseen fun s => { s with hi := hi, lo := lo } :=
  unseen_of_fields (fun _ => hi) (fun _ => lo) id id

theorem unseen_endian (e : Endian) : Unseen fun s => { s with endian := e } :=
  unseen_of_fields id id (fun _ => e) id

/-- The answer with the update made to its next state. -/
def mapNext (f : State → State) : Result → Result
  | .next t => .next (f t)
  | .fault r => .fault r
  | .refused r => .refused r

section
variable {f : State → State} (unseen : Unseen f) (s : State)
include unseen

theorem Unseen.getSigned (r : RegNum) : (f s).getSigned r = s.getSigned r :=
  congrArg sint32 (unseen.getReg s r)

theorem Unseen.effectiveAddress (base : RegNum) (offset : Int) :
    effectiveAddress (f s) base offset = effectiveAddress s base offset := by
  unfold Machine.effectiveAddress
  rw [unseen.getReg]

theorem Unseen.advance : (f s).advance = f s.advance := by
  show (f s).jumpTo ((f s).pc + 4) = f (s.jumpTo (s.pc + 4))
  rw [unseen.jumpTo, unseen.pc]

theorem Unseen.linkTo (target : Word) : (f s).linkTo target = f (s.linkTo target) := by
  unfold State.linkTo
  rw [unseen.pc, unseen.setReg, unseen.jumpTo]

theorem Unseen.takeFault (kind : FaultKind) (address recordedAddr : Word) :
    takeFault (f s) kind address recordedAddr = f (takeFault s kind address recordedAddr) :=
  (congrArg (fun u : State => { u with status := .faulted ⟨kind, address, recordedAddr⟩ }) (unseen.jumpTo s address)).trans
    (unseen.withStatus (s.jumpTo address) _)

theorem Unseen.raise (kind : FaultKind) (addr : Word) : raise (f s) kind addr = mapNext f (raise s kind addr) := by
  unfold Machine.raise State.instrAddress
  rw [unseen.pc, unseen.takeFault]
  rfl

theorem Unseen.withLegal (legal : Bool) {fromUpdated rest : Result} (later : fromUpdated = mapNext f rest) :
    withLegal legal (f s) fromUpdated = mapNext f (withLegal legal s rest) := by
  cases legal with
  | true => exact later
  | false => exact unseen.raise s .invalidImmediate 0

theorem Unseen.writeSigned (dest : RegNum) (exact : Int) :
    writeSigned (f s) dest exact = mapNext f (writeSigned s dest exact) := by
  unfold Machine.writeSigned
  split
  · rw [unseen.setReg]
    rfl
  · exact unseen.raise s .arithmeticOverflow 0

theorem Unseen.load_byte (extend : Nat → Word) (rt base : RegNum) (offset : Int) :
    load (f s) .byte extend rt offset base = mapNext f (load s .byte extend rt offset base) := by
  unfold load
  refine unseen.withLegal s _ ?_
  rw [memRead_byte, memRead_byte, unseen.mem, unseen.effectiveAddress]
  exact congrArg Host.Outcome.next (unseen.setReg s rt _)

theorem Unseen.store (order : (f s).endian = s.endian) (w : Width) (rt base : RegNum) (offset : Int) :
    store (f s) w rt offset base = mapNext f (store s w rt offset base) := by
  have sameWrite : memWrite (f s).endian (f s).mem (Machine.effectiveAddress s base offset) w ((f s).getReg rt).toNat =
      memWrite s.endian s.mem (Machine.effectiveAddress s base offset) w (s.getReg rt).toNat := by
    rw [order, unseen.mem, unseen.getReg]
  unfold Machine.store
  refine unseen.withLegal s _ ?_
  rw [unseen.effectiveAddress, sameWrite]
  split
  · exact congrArg Host.Outcome.next (unseen.withMem s _)
  · exact unseen.raise s .memoryAlignmentError _

/-- Execute commutes with an unseen update, which for a store must keep the byte order and for `mult` must not be on hi or lo. -/
theorem Unseen.exec (i : Instr) (order : (storeOf i).isSome → (f s).endian = s.endian)
    (product : ∀ rs rt, i = .mult rs rt → ∀ v, writeProduct (f s) v = f (writeProduct s v)) :
    exec i (f s) = mapNext f (exec i s) := by
  have getReg := unseen.getReg s
  have getSigned := unseen.getSigned s
  have setReg := unseen.setReg s
  cases i with
  | add rd rs rt =>
    show Machine.writeSigned (f s) rd ((f s).getSigned rs + (f s).getSigned rt) = _
    rw [getSigned, getSigned]
    exact unseen.writeSigned s rd _
  | sub rd rs rt =>
    show Machine.writeSigned (f s) rd ((f s).getSigned rs - (f s).getSigned rt) = _
    rw [getSigned, getSigned]
    exact unseen.writeSigned s rd _
  | addi rt rs imm =>
    refine unseen.withLegal s _ ?_
    rw [getSigned]
    exact unseen.writeSigned s rt _
  | mult rs rt =>
    show Host.Outcome.next (writeProduct (f s) ((f s).getSigned rs * (f s).getSigned rt)) = _
    rw [getSigned, getSigned, product rs rt rfl]
    rfl
  | sll rd rt sa | srl rd rt sa =>
    refine unseen.withLegal s _ ?_
    rw [getReg, setReg]
    rfl
  | lui rt imm =>
    refine unseen.withLegal s _ ?_
    rw [setReg]
    rfl
  | addu | srav | clz | clo => simp [Machine.exec, execAddu, execSrav, execClz, execClo, mapNext, getReg, setReg]
  | slt => simp [Machine.exec, execSlt, mapNext, getSigned, setReg]
  | lb rt offset base | lbu rt offset base => exact unseen.load_byte s _ rt base offset
  | sh rt offset base | sw rt offset base => exact unseen.store s (order rfl) _ rt base offset
  | j target => exact congrArg Host.Outcome.next (unseen.jumpTo s target)
  | jal target => exact congrArg Host.Outcome.next (unseen.linkTo s target)
  | bgez | blez | bgezal =>
    simp only [Machine.exec, execBgez, execBlez, execBgezal, getSigned, unseen.jumpTo, unseen.linkTo]
    split <;> rfl

/-- A step commutes with an unseen update that the fetch does not see either. -/
theorem Unseen.step (progEnd : (f s).progEnd = s.progEnd) (fetch : (f s).fetch s.pc = s.fetch s.pc)
    (execute : ∀ i, Machine.exec i (f s.advance) = mapNext f (Machine.exec i s.advance)) :
    step (f s) = mapNext f (step s) := by
  have status := unseen.status s
  have pc := unseen.pc s
  cases now : s.status with
  | halted => rw [step_of_halted now, step_of_halted (status.trans now), mapNext]
  | faulted rec => rw [step_of_faulted now, step_of_faulted (status.trans now), mapNext]
  | running =>
    have running := status.trans now
    by_cases atEnd : s.pc = s.progEnd
    · rw [step_of_progEnd now atEnd, step_of_progEnd running (by rw [pc, progEnd, atEnd]), unseen.withStatus, mapNext]
    · have notEnd : (f s).pc ≠ (f s).progEnd := by rwa [pc, progEnd]
      cases fetched : s.fetch s.pc with
      | error kind =>
        rw [step_of_fetch_error now atEnd fetched, step_of_fetch_error running notEnd (by rw [pc, fetch, fetched]), mapNext,
          fetchFault, fetchFault, pc, unseen.takeFault]
      | ok i =>
        rw [step_of_fetch_ok now atEnd fetched, step_of_fetch_ok running notEnd (by rw [pc, fetch, fetched]), unseen.advance,
          execute]

end

/-! ## A program of words -/

theorem State.fetch_of_no_entry {s : State} {A : Word} (none : s.entryAt A = none) :
    s.fetch A = .error .instructionFetchError := by
  unfold State.fetch
  rw [none]

theorem State.fetch_of_term {s : State} {l : List Instr} {k : Nat} {i : Instr} {A : Word} (prog : s.prog = .terms l)
    (found : s.entryAt A = some k) (entry : l[k]? = some i) : s.fetch A = .ok i := by
  unfold State.fetch
  simp only [found, prog, entry]

theorem State.fetch_of_word {s : State} {ws : List Word} {k : Nat} {w A : Word} {i : Instr} (prog : s.prog = .words ws)
    (found : s.entryAt A = some k) (entry : ws[k]? = some w) (decodes : decode A w = .ok i) : s.fetch A = .ok i := by
  unfold State.fetch
  simp only [found, prog, entry, decodes]

theorem State.entryAt_congr {s t : State} (base : t.progBase = s.progBase) (length : t.prog.length = s.prog.length)
    (A : Word) : t.entryAt A = s.entryAt A := by
  unfold State.entryAt
  rw [base, length]

/-- The words of a program are its entries' words, each at its entry's address (30_encoding.md R110, R112). -/
theorem encodeProgram_entries {program : List Instr} {A : Word} {ws : List Word} (encoded : encodeProgram A program = .ok ws) :
    ws.length = program.length ∧ ∀ k i, program[k]? = some i →
      ∃ w, ws[k]? = some w ∧ encode (A + BitVec.ofNat 32 (4 * k)) i = some w := by
  induction program generalizing A ws with
  | nil =>
    cases encoded
    exact ⟨rfl, nofun⟩
  | cons first rest ih =>
    obtain ⟨w, more, head, tail, rfl⟩ := encodeProgram_cons encoded
    obtain ⟨length, entries⟩ := ih tail
    refine ⟨congrArg Nat.succ length, fun k i entry => ?_⟩
    cases k with
    | zero =>
      cases entry
      exact ⟨w, rfl, (BitVec.add_zero A).symm ▸ head⟩
    | succ k =>
      have address : A + 4 + BitVec.ofNat 32 (4 * k) = A + BitVec.ofNat 32 (4 * (k + 1)) := by bv_omega
      exact address ▸ entries k i entry

/-- The entry at an address decodes to the term that stands there in the program of terms. -/
theorem fetch_words_eq_fetch_terms {s : State} {program : List Instr} {ws : List Word}
    (encoded : encodeProgram s.progBase program = .ok ws) (A : Word) :
    State.fetch { s with prog := .words ws } A = State.fetch { s with prog := .terms program } A := by
  obtain ⟨length, entries⟩ := encodeProgram_entries encoded
  have sameEntry : State.entryAt { s with prog := .words ws } A = State.entryAt { s with prog := .terms program } A :=
    State.entryAt_congr (s := { s with prog := .terms program }) (t := { s with prog := .words ws }) rfl length A
  cases found : State.entryAt { s with prog := .terms program } A with
  | none => rw [State.fetch_of_no_entry found, State.fetch_of_no_entry (sameEntry.trans found)]
  | some k =>
    obtain ⟨inside, address⟩ := entryAt_eq_some found
    have entry : program[k]? = some program[k] := List.getElem?_eq_getElem inside
    obtain ⟨w, word, encodes⟩ := entries k _ entry
    have decodes := (decodeGivesTheEncodedTermBack _ _).2 w encodes
    rw [← address] at decodes
    rw [State.fetch_of_term rfl found entry, State.fetch_of_word rfl (sameEntry.trans found) word decodes]

/-- Settles O13: the two programs fetch the same term at every address, and Execute does not see the program store. -/
theorem wordsRunLikeTheirTerms : Obligations.WordsRunLikeTheirTerms := by
  unfold Obligations.WordsRunLikeTheirTerms
  intro s program ws encoded
  have unseen := unseen_prog (.words ws)
  have length : (Program.words ws).length = (Program.terms program).length := (encodeProgram_entries encoded).1
  have steps := unseen.step { s with prog := .terms program }
    (congrArg (fun n => s.progBase + BitVec.ofNat 32 (4 * n)) length)
    (fetch_words_eq_fetch_terms encoded s.pc) fun i => unseen.exec _ i (fun _ => rfl) fun _ _ _ _ => rfl
  refine Eq.trans steps ?_
  cases step { s with prog := .terms program } <;> rfl

/-! ## hi, lo and ENDIAN -/

/-- Execute from another hi and lo: `mult` overwrites both, and no other instruction sees them. -/
theorem exec_with_hi_lo {i : Instr} {s t : State} (ran : exec i s = .next t) (hi lo : Word) :
    ∃ t', exec i { s with hi := hi, lo := lo } = .next t' ∧
      (t' = t ∨ (t.hi = s.hi ∧ t.lo = s.lo ∧ t' = { t with hi := hi, lo := lo })) := by
  by_cases mult : ∃ rs rt, i = .mult rs rt
  · obtain ⟨rs, rt, rfl⟩ := mult
    exact ⟨t, ran, .inl rfl⟩
  · obtain ⟨keepsHi, keepsLo⟩ := (effect_of_exec ran).mult_or_keeps_hi_lo.resolve_left mult
    have runs := (unseen_hi_lo hi lo).exec s i (fun _ => rfl) fun rs rt is => absurd ⟨rs, rt, is⟩ mult
    rw [ran] at runs
    exact ⟨_, runs, .inr ⟨keepsHi, keepsLo, rfl⟩⟩

/-- Settles O48: neither a halt, a fetch fault nor Execute sees hi and lo. -/
theorem noInstructionReadsHiOrLo : Obligations.NoInstructionReadsHiOrLo := by
  unfold Obligations.NoInstructionReadsHiOrLo
  intro s t hi lo stepped
  have running := running_of_step stepped
  obtain ⟨atEnd, rfl⟩ | ⟨kind, notEnd, failed, rfl⟩ | ⟨i, notEnd, fetched, ran⟩ := step_running running stepped
  case inl => exact ⟨_, step_of_progEnd running atEnd, .inr ⟨rfl, rfl, rfl⟩⟩
  case inr.inl => exact ⟨_, step_of_fetch_error running notEnd failed, .inr ⟨rfl, rfl, rfl⟩⟩
  case inr.inr =>
    obtain ⟨t', runs, same⟩ := exec_with_hi_lo ran hi lo
    exact ⟨t', (step_of_fetch_ok (s := { s with hi := hi, lo := lo }) running notEnd fetched).trans runs, same⟩

/-- Settles O49: without a store Execute does not see ENDIAN; the loads are of one byte. -/
theorem onlyStoresDependOnEndian : Obligations.OnlyStoresDependOnEndian := by
  unfold Obligations.OnlyStoresDependOnEndian
  intro i s t e noStore ran
  have runs := (unseen_endian e).exec s i (fun store => by simp [noStore] at store) fun _ _ _ _ => rfl
  rw [ran] at runs
  exact runs

end Sys2Proof.Machine
end

section
/-! PROOFS. The step of 10_state.md R50 from the state it finds: at the entry of a term or of a word, at PROG_END, and after the
run's end. -/

namespace Sys2Proof.Machine

/-- With fewer than 2^30 entries, a Running state whose pc is entry k's address executes what entry k holds. -/
theorem step_of_entry {s : State} {k : Nat} {i : Instr} (running : s.status = .running) (inside : k < s.prog.length)
    (size : s.prog.length < 2 ^ 30) (address : s.pc = s.progBase + BitVec.ofNat 32 (4 * k))
    (fetched : s.entryAt s.pc = some k → s.fetch s.pc = .ok i) : step s = exec i { s with pc := s.pc + 4 } :=
  step_of_fetch_ok running (address ▸ entry_ne_progEnd inside size) (fetched (address ▸ entryAt_entry inside size))

/-- Settles O56: entry k holds the term. -/
theorem stepRunsTheTermAtThePc : Obligations.StepRunsTheTermAtThePc := by
  unfold Obligations.StepRunsTheTermAtThePc
  intro s program k i running prog size entry address
  have length : s.prog.length = program.length := congrArg Program.length prog
  have inside : k < s.prog.length := length ▸ (List.getElem?_eq_some_iff.mp entry).1
  exact step_of_entry running inside (length ▸ size) address fun found => State.fetch_of_term prog found entry

/-- Settles O57: entry k holds the word, which decodes at the pc. -/
theorem stepRunsTheDecodedWordAtThePc : Obligations.StepRunsTheDecodedWordAtThePc := by
  unfold Obligations.StepRunsTheDecodedWordAtThePc
  intro s ws k w i running prog size entry address decodes
  have length : s.prog.length = ws.length := congrArg Program.length prog
  have inside : k < s.prog.length := length ▸ (List.getElem?_eq_some_iff.mp entry).1
  exact step_of_entry running inside (length ▸ size) address fun found => State.fetch_of_word prog found entry decodes

/-- Settles O59: the step's answer in each of the three states. -/
theorem runsEndAtProgEndOrAtAFault : Obligations.RunsEndAtProgEndOrAtAFault := by
  unfold Obligations.RunsEndAtProgEndOrAtAFault
  exact fun s => ⟨step_of_progEnd, step_of_halted, fun _ => step_of_faulted⟩

end Sys2Proof.Machine
end

section
/-! PROOFS. Operands and single instructions: the effective address (43_memory_access.md R175), `srl` (41_shift.md R161), the count
of leading ones (00_scope.md R13) and a byte load from inside a stored word (20_memory.md R78). -/

namespace Sys2Proof.Machine

/-- Settles O22: `uint32` is the residue modulo 2^32. -/
theorem effectiveAddressWraps : Obligations.EffectiveAddressWraps := by
  unfold Obligations.EffectiveAddressWraps
  exact fun s base offset => uint32_toNat _

/-! ## srl -/

/-- A legal amount leaves `srl` with the write of the shifted pattern alone (R161). -/
theorem exec_srl_of_legal {sa : Int} (low : 0 ≤ sa) (high : sa ≤ 31) (rd rt : RegNum) (s : State) :
    exec (.srl rd rt sa) s = .next (s.setReg rd (s.getReg rt >>> sa.toNat)) := by
  show withLegal (legalShift sa) s _ = _
  rw [(legalShift_iff sa).mpr ⟨low, high⟩, withLegal_true]

/-- Settles O29: an illegal amount raises before anything is written, and a zero-filling right shift is a quotient by a power of
two. -/
theorem srlDividesTheUnsignedValue : Obligations.SrlDividesTheUnsignedValue := by
  unfold Obligations.SrlDividesTheUnsignedValue
  intro s rd rt sa
  refine ⟨fun outside => withLegal_raises (legalShift_eq_false outside) s _, fun low high => ?_⟩
  refine ⟨_, exec_srl_of_legal low high rd rt s, s.onlyRegister_setReg rd _, fun nonzero => ?_⟩
  rw [s.getReg_setReg_same nonzero, BitVec.toNat_ushiftRight, Nat.shiftRight_eq_div_pow]

/-! ## clo32 -/

/-- The bits the scan counted are 0. -/
theorem getLsbD_of_lt_leadingZerosBelow {p : Word} {n k : Nat} (counted : k < leadingZerosBelow p n) :
    p.getLsbD (n - 1 - k) = false := by
  induction n generalizing k with
  | zero => cases counted
  | succ n ih =>
    unfold leadingZerosBelow at counted
    split at counted
    case isTrue => cases counted
    case isFalse clear =>
      cases k with
      | zero => exact Bool.eq_false_iff.mpr clear
      | succ k =>
        have next : n + 1 - 1 - (k + 1) = n - 1 - k := by omega
        rw [next]
        exact ih (Nat.lt_of_succ_lt_succ counted)

/-- The bit the scan stopped at, if it stopped, is 1. -/
theorem getLsbD_leadingZerosBelow {p : Word} {n : Nat} (stopped : leadingZerosBelow p n < n) :
    p.getLsbD (n - 1 - leadingZerosBelow p n) = true := by
  induction n with
  | zero => cases stopped
  | succ n ih =>
    unfold leadingZerosBelow at stopped ⊢
    split at stopped
    case isTrue set => rw [if_pos set]; exact set
    case isFalse clear =>
      have next : n + 1 - 1 - (leadingZerosBelow p n + 1) = n - 1 - leadingZerosBelow p n := by omega
      rw [if_neg clear, next]
      exact ih (Nat.lt_of_succ_lt_succ stopped)

theorem getLsbD_xor_ones (p : Word) {k : Nat} (inside : k < 32) : (p ^^^ 0xFFFFFFFF).getLsbD k = !p.getLsbD k := by
  have ones : (0xFFFFFFFF : Word) = BitVec.allOnes 32 := rfl
  rw [ones, BitVec.xor_allOnes, BitVec.getLsbD_not, decide_eq_true inside, Bool.true_and]

/-- Settles O16: the zeros counted in the complement are the ones of the pattern. -/
theorem cloCountsLeadingOnes : Obligations.CloCountsLeadingOnes := by
  unfold Obligations.CloCountsLeadingOnes
  refine fun p => ⟨clo32_le p, fun k counted => ?_, fun stopped => ?_⟩
  · have zero := getLsbD_of_lt_leadingZerosBelow counted
    rwa [getLsbD_xor_ones p (by omega), Bool.not_eq_false'] at zero
  · have one := getLsbD_leadingZerosBelow stopped
    rwa [getLsbD_xor_ones p (by omega), Bool.not_eq_true'] at one

/-! ## A byte load from inside a stored word -/

theorem effectiveAddress_congr {s t : State} (same : SameRegs s t) (base : RegNum) (offset : Int) :
    effectiveAddress t base offset = effectiveAddress s base offset := by
  unfold effectiveAddress
  rw [same base]

/-- Settles O21: the store puts byte `byteOffset k` of the word at offset k, and the load reads it there. -/
theorem byteLoadsSeeTheWordStored : Obligations.ByteLoadsSeeTheWordStored := by
  unfold Obligations.ByteLoadsSeeTheWordStored
  intro s rt base rd base' offset offset' k canonical swLegal lbuLegal nonzero divides inside address
  obtain ⟨swLow, swHigh⟩ := (isSigned16_iff offset).mp swLegal
  obtain ⟨lbuLow, lbuHigh⟩ := (isSigned16_iff offset').mp lbuLegal
  obtain ⟨t, stores, frame, bytes⟩ := store_writes swLow swHigh canonical .word rt base divides
  obtain ⟨u, loads, -, value⟩ := load_byte_writes lbuLow lbuHigh t zeroExtend8 rd base'
  refine ⟨t, u, stores, loads, ?_⟩
  rw [value nonzero, zeroExtend8_toNat, effectiveAddress_congr frame.regs, address, bytes k inside,
    extractLsb'_byte_toNat]
  cases s.endian <;> rfl

end Sys2Proof.Machine
end

section
/-! PROOFS. Reset and boot (10_state.md R55; 20_memory.md R81, R82; 70_reset_and_hazards.md R257): what each loader action refuses
and does, what a list of them does, and what the boot makes of all five steps. -/

namespace Sys2Proof.Machine

/-! ## Reset -/

/-- Settles O1: the fields of the reset state. -/
theorem resetGivesTheSpecValues : Obligations.ResetGivesTheSpecValues :=
  ⟨rfl, rfl, rfl, fun _ => rfl, rfl⟩

/-- Settles O3: the reset memory lists no cell, and its PROG_BASE and storage are numbers. -/
theorem resetMeetsTheInvariant : Obligations.ResetMeetsTheInvariant where
  memory := ⟨⟨.nil, nofun⟩, .nil, nofun⟩
  zero := rfl
  aligned := rfl
  status := State.statusOk_of_running rfl

/-! ## One byte added -/

/-- The setup with one byte written. -/
def Setup.withByte (u : Setup) (v : Int) (a : Nat) : Setup :=
  { u with machine := { u.machine with mem := u.machine.mem.write a (BitVec.ofInt 8 v) } }

theorem addressOf_of_outside {a : Int} (outside : a < 0 ∨ 2 ^ 32 ≤ a) : addressOf a = .error (.badAddress a) :=
  if_neg (by omega)

theorem addByte_of_range {v a : Int} (vLow : 0 ≤ v) (vHigh : v ≤ 255) (aLow : 0 ≤ a) (aHigh : a < 2 ^ 32) (u : Setup) :
    u.addByte v a = .ok (u.withByte v a.toNat) := by
  unfold Setup.addByte
  rw [if_pos ⟨vLow, vHigh⟩, addressOf_of_range aLow aHigh, ← uint32_toNat_of_range aLow aHigh]
  rfl

/-- Settles O5: both calls write at the same address, where a read gives the byte written last. -/
theorem theLastAddByteWins : Obligations.TheLastAddByteWins := by
  unfold Obligations.TheLastAddByteWins
  intro u v w a canonical
  refine ⟨fun outside => if_neg (by omega), fun low high outside => ?_, fun vLow vHigh wLow wHigh aLow aHigh => ?_⟩
  · unfold Setup.addByte
    rw [if_pos ⟨low, high⟩, addressOf_of_outside outside]
  · have first := Memory.read_write canonical a.toNat (v := BitVec.ofInt 8 v)
    have stillCanonical := Memory.write_wf canonical (show a.toNat < 2 ^ 32 by omega) (BitVec.ofInt 8 v)
    have second := Memory.read_write stillCanonical a.toNat (v := BitVec.ofInt 8 w)
    refine ⟨_, _, addByte_of_range vLow vHigh aLow aHigh u, addByte_of_range wLow wHigh aLow aHigh _, ?_, ?_,
      fun b other => ?_⟩
    · exact (first _).trans (if_pos rfl)
    · exact (second _).trans (if_pos rfl)
    · exact ((second b).trans (if_neg other)).trans ((first b).trans (if_neg other))

/-! ## One label bound -/

theorem getLabel_eq_ok_iff {labels : List (String × Word)} {name : String} {a : Word} :
    getLabel labels name = .ok a ↔ lookupName labels name = some a := by
  unfold getLabel
  cases lookupName labels name <;> simp

theorem getLabel_eq_error_iff {labels : List (String × Word)} {name : String} :
    getLabel labels name = .error (.unresolvedLabel name) ↔ lookupName labels name = none := by
  unfold getLabel
  cases lookupName labels name <;> simp

theorem getLabel_append {labels : List (String × Word)} {name : String} (free : lookupName labels name = none) (a : Word)
    (other : String) :
    getLabel (labels ++ [(name, a)]) other = if other = name then .ok a else getLabel labels other := by
  unfold getLabel
  rw [lookupName_append labels name other a free]
  by_cases same : other = name
  · rw [if_pos same, if_pos same]
  · rw [if_neg same, if_neg same]

/-- Settles O6: the name is looked up first, then the address checked, and the new binding resolves its own name only. -/
theorem labelsAreBoundOnce : Obligations.LabelsAreBoundOnce := by
  unfold Obligations.LabelsAreBoundOnce
  intro u name a
  refine ⟨fun b bound => ?_, fun unresolved outside => ?_, fun unresolved low high => ?_⟩
  · unfold Setup.addLabel
    rw [getLabel_eq_ok_iff.mp bound]
  · unfold Setup.addLabel
    rw [getLabel_eq_error_iff.mp unresolved, addressOf_of_outside outside]
  · have free := getLabel_eq_error_iff.mp unresolved
    refine ⟨{ u with machine := { u.machine with labels := u.machine.labels ++ [(name, uint32 a)] } }, ?_, ?_,
      fun other different => ?_⟩
    · unfold Setup.addLabel
      rw [free, addressOf_of_range low high]
    · rw [getLabel_append free, if_pos rfl]
    · rw [getLabel_append free, if_neg different]

/-! ## Lists of loader actions -/

/-- Step 2 of R257: the bytes added in order. -/
def Setup.addBytes (u : Setup) (bytes : List (Int × Int)) : Except LoadRefusal Setup :=
  bytes.foldlM (fun u b => u.addByte b.1 b.2) u

/-- Step 2 of R257: the labels bound in order. -/
def Setup.addLabels (u : Setup) (labels : List (String × Int)) : Except LoadRefusal Setup :=
  labels.foldlM (fun u l => u.addLabel l.1 l.2) u

/-- Step 4 of R257: the host's sets in order. -/
def Setup.setAll (u : Setup) (sets : List (PortReg × Int)) : Setup := sets.foldl (fun u x => u.set x.1 x.2) u

theorem ok_of_bind_eq_ok {α β : Type} {x : Except LoadRefusal α} {f : α → Except LoadRefusal β} {b : β}
    (h : (x >>= f) = .ok b) : ∃ a, x = .ok a ∧ f a = .ok b := by
  cases x with
  | error r => cases h
  | ok a => exact ⟨a, rfl, h⟩

/-- What every action of a list keeps, the list keeps. -/
theorem foldlM_keeps {α β : Type} {f : β → α → Except LoadRefusal β} {P : β → Prop} {l : List α} {b b' : β}
    (step : ∀ x ∈ l, ∀ b b', f b x = .ok b' → P b → P b') (folded : l.foldlM f b = .ok b') (start : P b) : P b' := by
  induction l generalizing b with
  | nil =>
    cases folded
    exact start
  | cons x rest ih =>
    obtain ⟨next, first, more⟩ := ok_of_bind_eq_ok folded
    exact ih (fun y hy => step y (List.mem_cons_of_mem x hy)) more (step x List.mem_cons_self b next first start)

theorem Setup.addBytes_append (u : Setup) (before after : List (Int × Int)) :
    u.addBytes (before ++ after) = u.addBytes before >>= fun v => v.addBytes after := List.foldlM_append

/-- An `add_byte` that is not refused writes at its own address. -/
theorem addByte_eq_ok_withByte {u u' : Setup} {v a : Int} (added : u.addByte v a = .ok u') :
    0 ≤ a ∧ a < 2 ^ 32 ∧ u' = u.withByte v a.toNat := by
  obtain ⟨w, address, rfl⟩ := addByte_eq_ok added
  obtain ⟨low, high, rfl⟩ := addressOf_eq_ok address
  exact ⟨low, high, by rw [uint32_toNat_of_range low high]; rfl⟩

section
variable {u u' : Setup} {bytes : List (Int × Int)}

/-- Added bytes change memory alone, and not MEM_INIT. -/
theorem addBytes_frame (added : u.addBytes bytes = .ok u') :
    u' = { u with machine := { u.machine with mem := u'.machine.mem } } ∧ u'.machine.mem.init = u.machine.mem.init := by
  refine foldlM_keeps (P := fun x => x = { u with machine := { u.machine with mem := x.machine.mem } } ∧
    x.machine.mem.init = u.machine.mem.init) (fun b _ x x' one ⟨frame, init⟩ => ?_) added ⟨rfl, rfl⟩
  obtain ⟨-, -, rfl⟩ := addByte_eq_ok_withByte one
  exact ⟨by rw [frame]; rfl, init⟩

theorem addBytes_wf (added : u.addBytes bytes = .ok u') (canonical : u.machine.mem.wf) : u'.machine.mem.wf := by
  refine foldlM_keeps (P := fun x => x.machine.mem.wf) (fun b _ x x' one wf => ?_) added canonical
  obtain ⟨low, high, rfl⟩ := addByte_eq_ok_withByte one
  exact Memory.write_wf wf (by omega) _

theorem addBytes_read_other (added : u.addBytes bytes = .ok u') (canonical : u.machine.mem.wf) {a : Nat}
    (never : ∀ x ∈ bytes, x.2 ≠ (a : Int)) : u'.machine.mem.read a = u.machine.mem.read a := by
  refine (foldlM_keeps (P := fun x => x.machine.mem.wf ∧ x.machine.mem.read a = u.machine.mem.read a)
    (fun b hb x x' one ⟨wf, same⟩ => ?_) added ⟨canonical, rfl⟩).2
  obtain ⟨low, high, rfl⟩ := addByte_eq_ok_withByte one
  have different : a ≠ b.2.toNat := fun h => never b hb (by omega)
  exact ⟨Memory.write_wf wf (by omega) _, ((Memory.read_write wf _ _ _).trans (if_neg different)).trans same⟩

/-- The byte added last at an address is the one read there (20_memory.md R81). -/
theorem addBytes_read_last {before after : List (Int × Int)} {v a : Int}
    (added : u.addBytes (before ++ (v, a) :: after) = .ok u') (canonical : u.machine.mem.wf)
    (last : ∀ x ∈ after, x.2 ≠ a) : u'.machine.mem.read a.toNat = BitVec.ofInt 8 v := by
  rw [Setup.addBytes_append] at added
  obtain ⟨x, first, rest⟩ := ok_of_bind_eq_ok added
  obtain ⟨y, one, others⟩ := ok_of_bind_eq_ok rest
  have wf := addBytes_wf first canonical
  obtain ⟨low, high, rfl⟩ := addByte_eq_ok_withByte one
  rw [addBytes_read_other others (Memory.write_wf wf (by omega) _) fun z hz => by rw [Int.toNat_of_nonneg low]; exact last z hz]
  exact (Memory.read_write wf _ _ _).trans (if_pos rfl)

end

/-- Labels bound in order are listed in order, and nothing else changes. -/
theorem addLabels_eq_ok {labels : List (String × Int)} {u u' : Setup} (named : u.addLabels labels = .ok u') :
    u' = { u with machine := { u.machine with
      labels := u.machine.labels ++ labels.map fun l => (l.1, uint32 l.2) } } := by
  induction labels generalizing u with
  | nil =>
    cases named
    simp
  | cons l rest ih =>
    obtain ⟨next, first, more⟩ := ok_of_bind_eq_ok named
    rw [ih more, addLabel_eq_ok first]
    simp

/-! ## The host's sets -/

theorem Setup.setAll_append (u : Setup) (before after : List (PortReg × Int)) :
    u.setAll (before ++ after) = (u.setAll before).setAll after := List.foldl_append

theorem Setup.setAll_keeps {P : State → Prop} (step : ∀ s r v, P s → P (s.portSet r v)) (u : Setup)
    (sets : List (PortReg × Int)) (start : P u.machine) : P (u.setAll sets).machine := by
  induction sets generalizing u with
  | nil => exact start
  | cons x rest ih => exact ih (u.set x.1 x.2) (step u.machine x.1 x.2 start)

theorem Setup.portPattern_setAll_other (u : Setup) {sets : List (PortReg × Int)} {r : PortReg}
    (never : ∀ x ∈ sets, x.1 ≠ r) : (u.setAll sets).state.portPattern r = u.state.portPattern r := by
  induction sets generalizing u with
  | nil => rfl
  | cons x rest ih =>
    refine (ih (u.set x.1 x.2) fun y hy => never y (List.mem_cons_of_mem x hy)).trans ?_
    exact u.portPattern_set_other (never x List.mem_cons_self).symm x.2

theorem Setup.portPattern_setAll_last (u : Setup) {before after : List (PortReg × Int)} {r : PortReg} {v : Int}
    (last : ∀ x ∈ after, x.1 ≠ r) (writable : r ≠ .gpr 0) :
    (u.setAll (before ++ (r, v) :: after)).state.portPattern r = uint32 v := by
  rw [Setup.setAll_append]
  exact (Setup.portPattern_setAll_other _ last).trans (Setup.portPattern_set_same _ writable v)

theorem Setup.setAll_mem (u : Setup) (sets : List (PortReg × Int)) : (u.setAll sets).machine.mem = u.machine.mem :=
  u.setAll_keeps (P := fun s => s.mem = u.machine.mem) (fun s r v same => (s.portSet_mem r v).trans same) sets rfl

theorem Setup.sameRun_setAll (u : Setup) (sets : List (PortReg × Int)) : SameRun u.machine (u.setAll sets).machine :=
  u.setAll_keeps (P := SameRun u.machine) (fun s r v same => same.trans (s.sameRun_portSet r v)) sets (SameRun.refl _)

theorem State.portSet_gpr_zero_slot (s : State) (r : PortReg) (v : Int) : (s.portSet r v).gpr[0] = s.gpr[0] := by
  cases r with
  | gpr i => exact s.setReg_gpr_zero i (uint32 v)
  | pc | hi | lo => rfl

theorem Setup.setAll_gpr_zero_slot (u : Setup) (sets : List (PortReg × Int)) :
    (u.setAll sets).machine.gpr[0] = u.machine.gpr[0] :=
  u.setAll_keeps (P := fun s => s.gpr[0] = u.machine.gpr[0]) (fun s r v same => (s.portSet_gpr_zero_slot r v).trans same) sets
    rfl

/-! ## The boot -/

/-- The setup after step 3 of R257: what was given, and the memory and the program store that were filled. -/
def Setup.loaded (endian : Endian) (m : Memory) (regs : Vector Word 32) (hi lo : Word) (labels : List (String × Word))
    (base : Word) (p : Program) : Setup where
  machine :=
    { State.reset with
      endian := endian, mem := m, gpr := regs.set 0 0, hi := hi, lo := lo, labels := labels, progBase := base, prog := p }
  pcSet := false

theorem Setup.loaded_portPattern_gpr {endian : Endian} {m : Memory} {regs : Vector Word 32} {hi lo : Word}
    {labels : List (String × Word)} {base : Word} {p : Program} {r : RegNum} (nonzero : r ≠ 0) :
    (Setup.loaded endian m regs hi lo labels base p).state.portPattern (.gpr r) = regs[r.val] := by
  have different : 0 ≠ r.val := fun h => nonzero (Fin.ext h.symm)
  exact (if_neg nonzero).trans (Vector.getElem_set_ne (by decide) r.isLt different)

section
variable {endian : Endian} {init : MemInit} {regs : Vector Word 32} {hi lo : Word} {bytes : List (Int × Int)}
  {labels : List (String × Int)} {base : Word} {layer : Bool} {text : List String} {sets : List (PortReg × Int)} {s : State}

/-- A boot that is not refused: the bytes fill the memory, the text the program store, and the host's sets end the setup. -/
theorem boot_eq_ok (booted : boot endian init regs hi lo bytes labels base layer text sets = .ok s) :
    ∃ filled program p loaded, (Setup.construct endian init regs hi lo).addBytes bytes = .ok filled ∧ base.toNat % 4 = 0 ∧
      assembleText (labels.map fun l => (l.1, uint32 l.2)) text = .ok program ∧ p.binaryLayer = layer ∧
      (layer = false → p = .terms program) ∧ (layer = true → ∃ ws, encodeProgram base program = .ok ws ∧ p = .words ws) ∧
      loaded = Setup.loaded endian filled.machine.mem regs hi lo (labels.map fun l => (l.1, uint32 l.2)) base p ∧
      s = (loaded.setAll sets).start := by
  obtain ⟨filled, bytesAdded, booted⟩ := ok_of_bind_eq_ok booted
  obtain ⟨named, labelsAdded, booted⟩ := ok_of_bind_eq_ok booted
  obtain ⟨loaded, textLoaded, booted⟩ := ok_of_bind_eq_ok booted
  obtain ⟨frame, -⟩ := addBytes_frame bytesAdded
  have namedIs := addLabels_eq_ok labelsAdded
  obtain ⟨aligned, program, p, assembled, rfl, isLayer, terms, words⟩ := loadText_eq_ok textLoaded
  rw [namedIs, frame] at assembled booted
  cases booted
  exact ⟨filled, program, p, _, bytesAdded, aligned, assembled, isLayer, terms, words, rfl, rfl⟩

end

/-- Settles O4: the bytes keep the memory canonical, PROG_BASE was accepted aligned, and no set reaches the storage of x[0]. -/
theorem bootMeetsTheInvariant : Obligations.BootMeetsTheInvariant := by
  unfold Obligations.BootMeetsTheInvariant
  intro endian init regs hi lo bytes labels base layer text sets s canonical booted
  obtain ⟨filled, program, p, loaded, added, aligned, -, -, -, -, isLoaded, rfl⟩ := boot_eq_ok booted
  have memory := loaded.setAll_mem sets
  have zero := loaded.setAll_gpr_zero_slot sets
  have run := loaded.sameRun_setAll sets
  subst isLoaded
  refine ⟨⟨?_, zero.trans (Vector.getElem_set_self ..), ?_, State.statusOk_of_running rfl⟩, rfl⟩
  · have filledCanonical := addBytes_wf added canonical
    exact (congrArg Memory.wf memory).mpr filledCanonical
  · exact run.progBase ▸ aligned

/-- Settles O2: the sets leave all but the registers as loaded, a register holds its last set or its loaded value, and the loaded
memory is the one the bytes filled. -/
theorem bootGivesEveryPieceItsLaunchValue : Obligations.BootGivesEveryPieceItsLaunchValue := by
  unfold Obligations.BootGivesEveryPieceItsLaunchValue
  intro endian init regs hi lo bytes labels base layer text sets s booted
  obtain ⟨filled, program, p, loaded, added, -, assembled, isLayer, terms, words, isLoaded, rfl⟩ := boot_eq_ok booted
  obtain ⟨-, memInit⟩ := addBytes_frame added
  have memory := loaded.setAll_mem sets
  have run := loaded.sameRun_setAll sets
  have unset (r : PortReg) (never : ∀ x ∈ sets, x.1 ≠ r) := loaded.portPattern_setAll_other never
  have lastSet (before r v after) (split : sets = before ++ (r, v) :: after) (last : ∀ x ∈ after, x.1 ≠ r)
      (writable : r ≠ .gpr 0) : (loaded.setAll sets).start.portPattern r = uint32 v := by
    rw [split]
    exact (Setup.start_portPattern _ r).trans (Setup.portPattern_setAll_last _ last writable)
  subst isLoaded
  refine ⟨rfl, run.endian, run.memInit.trans memInit, run.progBase, (congrArg _ run.prog).trans isLayer, rfl, lastSet,
    fun r nonzero never => (unset (.gpr r) never).trans (Setup.loaded_portPattern_gpr nonzero),
    unset .pc, unset .hi, unset .lo, ?_, ?_, run.labels, program, ?_, fun isTerms => run.prog.trans (terms isTerms),
    fun isWords => ?_⟩
  · rintro rfl a
    cases added
    exact congrArg (Memory.read · a) memory
  · intro canonical
    refine ⟨?_, fun a never => ?_⟩
    · rintro before v a after rfl last
      have filledLast := addBytes_read_last added canonical last
      exact (congrArg (Memory.read · a.toNat) memory).trans filledLast
    · exact (congrArg (Memory.read · a) memory).trans (addBytes_read_other added canonical never)
  · exact (congrArg (assembleText · text) run.labels).trans assembled
  · obtain ⟨ws, encoded, isWords⟩ := words isWords
    exact ⟨ws, encoded, run.prog.trans isWords⟩

end Sys2Proof.Machine
end
